-- ==== Sys2Proof/Word.lean ====
section
/-! DEFINITION. The two value types of PGPCORE: a 32-bit register value (spec R8) and a byte (R11). -/

namespace Sys2Proof

/-- A register value or a command word: 32 bits (spec 00_scope.md R8, 30_encoding.md R80). -/
abbrev Word := BitVec 32

/-- A byte, a natural number in `[0, 256)` (spec 00_scope.md R11). -/
abbrev Byte := BitVec 8

end Sys2Proof
end

