-- ==== Sys2Proof/Config.lean ====
section
/-! DEFINITION. What an implementation of PGPCORE fixes: its identity, the bounds of the parameter N, and the open parameter CYCLES. -/

namespace Sys2Proof.Config

/-- The name of the hardware (spec R1). -/
def hardwareName : String := "PGPCORE"

/-- The command-set identifier (spec R2). -/
def commandSet : String := "PGPCORE-1"

/-- The least buffer capacity N (spec R7). -/
def minN : Nat := 4

/-- The greatest buffer capacity N (spec R7). -/
def maxN : Nat := 2 ^ 28

/-- The capacity that `State.reset` takes. DESIGN CHOICE (log 1): spec R7 recommends 8194 and leaves
N open; every state carries its own N in CAP, so no statement over all states rests on this number. -/
def defaultN : Word := 8194#32

/-- The open parameter `CYCLES(cmd, IN_LEN, MPI_LEN)` (spec R207), uninterpreted: no rule of the
spec, and no definition of the model, depends on it (log 10). -/
opaque cycles : Word → Nat → Nat → Nat

end Sys2Proof.Config
end

