-- ==== Sys2Proof/Syntax.lean ====
section
/-! DEFINITION. The sixteen commands of PGPCORE (spec 30_encoding.md R84), one constructor each, with their mnemonics and option groups. -/

namespace Sys2Proof

/-- The commands. None has a register-number field or an immediate: every operand is implicit
(spec R82), so no constructor takes an argument. -/
inductive Instr where
  /-- CRC_INIT (R100): reset the accumulator. -/
  | crcInit
  /-- CRC_UPDATE (R103): fold the input window into the accumulator. -/
  | crcUpdate
  /-- CRC_GEN (R104): one-shot checksum of the input window. -/
  | crcGen
  /-- CRC_OUT (R105): serialise the accumulator. -/
  | crcOut
  /-- BITLEN (R121): bit length of the input window. -/
  | bitlen
  /-- MPI_LOAD (R123): the MPInt of the raw bytes in the input window. -/
  | mpiLoad
  /-- MPI_DECODE (R125): the MPInt of the wire form in the input window. -/
  | mpiDecode
  /-- MPI_ENCODE (R128): the wire form of the MPInt. -/
  | mpiEncode
  /-- MPI_WLEN (R130): the wire length of the MPInt. -/
  | mpiWlen
  /-- MPI_RAW (R132): the raw form of the MPInt. -/
  | mpiRaw
  /-- BE_ENC2 (R151): VAL as 2 big-endian bytes. -/
  | beEnc2
  /-- BE_ENC3 (R152): VAL as 3 big-endian bytes. -/
  | beEnc3
  /-- BE_ENC4 (R153): VAL as 4 big-endian bytes. -/
  | beEnc4
  /-- BE_DEC2 (R155): VAL from 2 big-endian bytes. -/
  | beDec2
  /-- BE_DEC3 (R156): VAL from 3 big-endian bytes. -/
  | beDec3
  /-- BE_DEC4 (R157): VAL from 4 big-endian bytes. -/
  | beDec4
deriving DecidableEq, Repr

/-- The mnemonic of a command (spec R84). -/
def Instr.mnemonic : Instr → String
  | .crcInit => "CRC_INIT"
  | .crcUpdate => "CRC_UPDATE"
  | .crcGen => "CRC_GEN"
  | .crcOut => "CRC_OUT"
  | .bitlen => "BITLEN"
  | .mpiLoad => "MPI_LOAD"
  | .mpiDecode => "MPI_DECODE"
  | .mpiEncode => "MPI_ENCODE"
  | .mpiWlen => "MPI_WLEN"
  | .mpiRaw => "MPI_RAW"
  | .beEnc2 => "BE_ENC2"
  | .beEnc3 => "BE_ENC3"
  | .beEnc4 => "BE_ENC4"
  | .beDec2 => "BE_DEC2"
  | .beDec3 => "BE_DEC3"
  | .beDec4 => "BE_DEC4"

/-- The option group of a command (spec R2); all three groups are present in every PGPCORE. -/
def Instr.optionGroup : Instr → String
  | .crcInit | .crcUpdate | .crcGen | .crcOut => "CRC24"
  | .bitlen | .mpiLoad | .mpiDecode | .mpiEncode | .mpiWlen | .mpiRaw => "MPI16"
  | .beEnc2 | .beEnc3 | .beEnc4 | .beDec2 | .beDec3 | .beDec4 => "BE234"

/-- The width in bytes that a command of the BE group names in its field W (spec R81, R82). -/
def Instr.width? : Instr → Option Nat
  | .beEnc2 | .beDec2 => some 2
  | .beEnc3 | .beDec3 => some 3
  | .beEnc4 | .beDec4 => some 4
  | .crcInit | .crcUpdate | .crcGen | .crcOut => none
  | .bitlen | .mpiLoad | .mpiDecode | .mpiEncode | .mpiWlen | .mpiRaw => none

end Sys2Proof
end

