-- ==== Sys2Proof/Machine/HostOp.lean ====
section
/-! DEFINITION. The operations of the host port (spec 10_state.md R40 to R44) and the text lines that stand for them (30_encoding.md R88, R89), as syntax. -/

namespace Sys2Proof.Machine

/-- The three byte buffers (spec R32 to R34). -/
inductive BufId where
  | ibuf
  | mbuf
  | obuf
deriving DecidableEq, Repr

/-- A host-port operation (spec R40 to R44). Register numbers are 32 bits wide (R67); the spec gives
a byte index no width, so it is any natural number (log 11). -/
inductive HostOp where
  /-- `HP_WR(r, v)` (R40). -/
  | wr (r : Word) (v : Word)
  /-- `HP_RD(r)` (R41). -/
  | rd (r : Word)
  /-- `HP_WRB(i, b)` (R42). -/
  | wrb (i : Nat) (b : Byte)
  /-- `HP_RDB(S, i)` (R43). -/
  | rdb (buf : BufId) (i : Nat)
  /-- `HP_RESET()` (R44). -/
  | reset
  /-- An operation outside R40 to R44. It does not exist in the hardware; a model keeps a refusal
  for it (R188, log 9). -/
  | outside
deriving DecidableEq, Repr

/-- What a host-port operation returns: a read returns a register value (R41) or a byte (R43). -/
inductive Reply where
  | word (v : Word)
  | byte (b : Byte)
deriving DecidableEq, Repr

/-- A line of the text form of a host program (spec R88), or a pseudo-instruction (R89). -/
inductive AsmLine where
  /-- `<MNEMONIC>`. -/
  | command (i : Instr)
  /-- `WR r, v`. -/
  | wr (r : Word) (v : Word)
  /-- `RD r`. -/
  | rd (r : Word)
  /-- `WRB i, b`. -/
  | wrb (i : Nat) (b : Byte)
  /-- `RDB S, i`. -/
  | rdb (buf : BufId) (i : Nat)
  /-- `RESET`. -/
  | reset
  /-- `.word w`. -/
  | word (w : Word)
  /-- `LOADIN [b0, ..., bk-1]`. -/
  | loadin (bs : List Byte)
  /-- `SETVAL v`. -/
  | setval (v : Word)
  /-- `CLREACC`. -/
  | clreacc
deriving DecidableEq, Repr

end Sys2Proof.Machine
end

