-- ==== Sys2Proof/WellFormed.lean ====
section
/-! DEFINITION. The checks that the spec puts on the parameter N, on a command's width, on a host operation and on a text line. -/

namespace Sys2Proof

/-- A legal buffer capacity: `4 <= N <= 2^28` (spec R7). -/
def capacityWellFormed (n : Nat) : Bool :=
  decide (Config.minN ≤ n) && decide (n ≤ Config.maxN)

/-- Only the widths 2, 3 and 4 are legal (spec R82). -/
def widthWellFormed (n : Nat) : Bool :=
  decide (n = 2) || decide (n = 3) || decide (n = 4)

/-- A command is well formed when the width it names, if any, is legal (spec R82). The sixteen
constructors have no operand, so each of them is. -/
def Instr.wellFormed (i : Instr) : Bool :=
  match i.width? with
  | none => true
  | some n => widthWellFormed n

namespace Machine

/-- An operation that the host port has (spec R40 to R44, R188). -/
def HostOp.wellFormed : HostOp → Bool
  | .wr _ _ | .rd _ | .wrb _ _ | .rdb _ _ | .reset => true
  | .outside => false

/-- `LOADIN` requires that its bytes fit IBUF (spec R89); the other lines have no requirement. -/
def AsmLine.wellFormed (n : Nat) : AsmLine → Bool
  | .loadin bs => decide (bs.length ≤ n)
  | .command _ | .wr _ _ | .rd _ | .wrb _ _ | .rdb _ _ => true
  | .reset | .word _ | .setval _ | .clreacc => true

end Machine

end Sys2Proof
end

