-- ==== Sys2Proof/Decode.lean ====
section
/-! DEFINITION. The decoder of command words (spec 30_encoding.md R80, R81, R85), read field by field, and the encoder, read from the opcode map (R84). -/

namespace Sys2Proof

/-- Why a word is no command; the five cases are those of spec R85. Each raises ILLEGAL. -/
inductive DecodeReject where
  /-- `w[31:8]` is not 0. -/
  | reservedBits
  /-- The CRC group with FN 0 or 5 to 15; the all-zero word is one. -/
  | crcFunction
  /-- The BE group with W not 2, 3 or 4. -/
  | beWidth
  /-- The MPI group with FN 6 to 15. -/
  | mpiFunction
  /-- GRP 3 to 15. -/
  | unknownGroup
deriving DecidableEq, Repr

/-- `w[hi:lo]`, read as an unsigned number (spec R10). -/
def wordField (w : Word) (hi lo : Nat) : Nat :=
  w.toNat / 2 ^ lo % 2 ^ (hi + 1 - lo)

/-- Group 0, by FN (spec R81, format `CRC`). -/
def decodeCrcGroup (fn : Nat) : Except DecodeReject Instr :=
  match fn with
  | 1 => .ok .crcInit
  | 2 => .ok .crcUpdate
  | 3 => .ok .crcGen
  | 4 => .ok .crcOut
  | _ => .error .crcFunction

/-- Group 1, by D and W (spec R81, format `BE`). -/
def decodeBeGroup (d width : Nat) : Except DecodeReject Instr :=
  match d, width with
  | 0, 2 => .ok .beEnc2
  | 0, 3 => .ok .beEnc3
  | 0, 4 => .ok .beEnc4
  | 1, 2 => .ok .beDec2
  | 1, 3 => .ok .beDec3
  | 1, 4 => .ok .beDec4
  | _, _ => .error .beWidth

/-- Group 2, by FN (spec R81, format `MPI`). -/
def decodeMpiGroup (fn : Nat) : Except DecodeReject Instr :=
  match fn with
  | 0 => .ok .bitlen
  | 1 => .ok .mpiLoad
  | 2 => .ok .mpiDecode
  | 3 => .ok .mpiEncode
  | 4 => .ok .mpiWlen
  | 5 => .ok .mpiRaw
  | _ => .error .mpiFunction

/-- The decoder (spec R80): total, a function of the word alone (R87). -/
def decode (w : Word) : Except DecodeReject Instr :=
  if wordField w 31 8 ≠ 0 then .error .reservedBits
  else
    match wordField w 7 4 with
    | 0 => decodeCrcGroup (wordField w 3 0)
    | 1 => decodeBeGroup (wordField w 3 3) (wordField w 2 0)
    | 2 => decodeMpiGroup (wordField w 3 0)
    | _ => .error .unknownGroup

/-- What the decoder reads from a word whose bits are numbered as the opcode table numbers them. A
command is one 32-bit word (spec R80); bits above `nbits` are 0. -/
def decodeTableWord (nbits w : Nat) : Option Instr :=
  (decode (BitVec.ofNat 32 (w % 2 ^ nbits))).toOption

/-- The word of a command: the column "word" of the opcode map (spec R84). -/
def encode : Instr → Word
  | .crcInit => 0x00000001#32
  | .crcUpdate => 0x00000002#32
  | .crcGen => 0x00000003#32
  | .crcOut => 0x00000004#32
  | .bitlen => 0x00000020#32
  | .mpiLoad => 0x00000021#32
  | .mpiDecode => 0x00000022#32
  | .mpiEncode => 0x00000023#32
  | .mpiWlen => 0x00000024#32
  | .mpiRaw => 0x00000025#32
  | .beEnc2 => 0x00000012#32
  | .beEnc3 => 0x00000013#32
  | .beEnc4 => 0x00000014#32
  | .beDec2 => 0x0000001A#32
  | .beDec3 => 0x0000001B#32
  | .beDec4 => 0x0000001C#32

/-! Each command's word, bit by bit from the opcode table's column "encoding", decodes to it. -/

theorem decode_crcInit :
    decode 0b00000000000000000000000000000001#32 = .ok .crcInit := by decide
theorem decode_crcUpdate :
    decode 0b00000000000000000000000000000010#32 = .ok .crcUpdate := by decide
theorem decode_crcGen :
    decode 0b00000000000000000000000000000011#32 = .ok .crcGen := by decide
theorem decode_crcOut :
    decode 0b00000000000000000000000000000100#32 = .ok .crcOut := by decide
theorem decode_bitlen :
    decode 0b00000000000000000000000000100000#32 = .ok .bitlen := by decide
theorem decode_mpiLoad :
    decode 0b00000000000000000000000000100001#32 = .ok .mpiLoad := by decide
theorem decode_mpiDecode :
    decode 0b00000000000000000000000000100010#32 = .ok .mpiDecode := by decide
theorem decode_mpiEncode :
    decode 0b00000000000000000000000000100011#32 = .ok .mpiEncode := by decide
theorem decode_mpiWlen :
    decode 0b00000000000000000000000000100100#32 = .ok .mpiWlen := by decide
theorem decode_mpiRaw :
    decode 0b00000000000000000000000000100101#32 = .ok .mpiRaw := by decide
theorem decode_beEnc2 :
    decode 0b00000000000000000000000000010010#32 = .ok .beEnc2 := by decide
theorem decode_beEnc3 :
    decode 0b00000000000000000000000000010011#32 = .ok .beEnc3 := by decide
theorem decode_beEnc4 :
    decode 0b00000000000000000000000000010100#32 = .ok .beEnc4 := by decide
theorem decode_beDec2 :
    decode 0b00000000000000000000000000011010#32 = .ok .beDec2 := by decide
theorem decode_beDec3 :
    decode 0b00000000000000000000000000011011#32 = .ok .beDec3 := by decide
theorem decode_beDec4 :
    decode 0b00000000000000000000000000011100#32 = .ok .beDec4 := by decide

end Sys2Proof
end

