-- ==== Sys2Proof/Machine/Codec.lean ====
section
/-! DEFINITION. The pure helpers of spec 00_scope.md R14 over byte lists: BE, beval, stripLZ, blen8, bitLengthOf, ceil8. -/

namespace Sys2Proof.Machine

/-- `BE(n, v)`: the n low bytes of v, most significant first; each shift is truncated to a byte (R14). -/
def be : Nat → Nat → List Byte
  | 0, _ => []
  | n + 1, v => BitVec.ofNat 8 (v >>> (8 * n)) :: be n v

/-- `beval(s)`: the inverse weighted sum, first byte most significant (R14). -/
def beval : List Byte → Nat
  | [] => 0
  | b :: s => 256 ^ s.length * b.toNat + beval s

/-- `stripLZ(s)`: s without its leading zero bytes (R14). -/
def stripLZ : List Byte → List Byte
  | [] => []
  | b :: s => if b = 0#8 then stripLZ s else b :: s

/-- `blen8(b)`: the position of the highest set bit of a non-zero byte, plus 1 (R14, R122). -/
def blen8 (b : Byte) : Nat :=
  Nat.log2 b.toNat + 1

/-- `bitLengthOf(s)`: 0 where every byte is 0; else the bit length of the first non-zero byte plus 8
for each byte after it (R14, R122). -/
def bitLengthOf (s : List Byte) : Nat :=
  match stripLZ s with
  | [] => 0
  | b :: rest => blen8 b + 8 * rest.length

/-- `ceil8(L)`: the bytes that L bits take (R14). -/
def ceil8 (l : Nat) : Nat :=
  (l + 7) / 8

end Sys2Proof.Machine
end

