-- ==== Sys2Proof/Machine/CrcFold.lean ====
section
/-! DEFINITION. The CRC-24 constants and the bit-serial fold (spec 40_crc24.md R101). -/

namespace Sys2Proof.Machine

/-- INIT (R101). UNVERIFIED against the Swift source, as spec 93_implementation_defined.md I7 says (log 13). -/
def crcInitValue : Word := 0x00B704CE#32

/-- POLY (R101). UNVERIFIED against the Swift source, as spec 93_implementation_defined.md I7 says (log 13). -/
def crcPoly : Word := 0x01864CFB#32

/-- One of the eight repeats for a byte: shift left, then XOR with POLY if bit 24 is set (R101). The
register is 32 bits wide (R25, log 6). -/
def crcStepBit (c : Word) : Word :=
  let shifted := c <<< 1
  if shifted &&& 0x01000000#32 ≠ 0#32 then shifted ^^^ crcPoly else shifted

/-- One byte of the fold: XOR the byte in at bit 16, then eight bit steps (R101). -/
def crcStepByte (c : Word) (b : Byte) : Word :=
  crcStepBit <| crcStepBit <| crcStepBit <| crcStepBit <|
    crcStepBit <| crcStepBit <| crcStepBit <| crcStepBit (c ^^^ (b.setWidth 32 <<< 16))

/-- `crc24_fold(c, s)`: the bytes of s in order (R101). -/
def crc24Fold (c : Word) : List Byte → Word
  | [] => c
  | b :: s => crc24Fold (crcStepByte c b) s

end Sys2Proof.Machine
end

