-- ==== Sys2Proof/Machine/State.lean ====
section
/-! DEFINITION. The state of PGPCORE (spec 10_state.md R20) with the host's side of the port, its reset, and the reasons a step can stop. -/

namespace Sys2Proof.Machine

/-- A byte buffer: its bytes as (index, byte) pairs in one canonical form: indices strictly rising,
no pair whose byte is 0x00. An index that is not listed holds 0x00, the reset value of every byte (R36). -/
abbrev Memory := List Host.Cell

/-- The state. The first thirteen fields are the spec's own (R20); the last two stand for the host's
side of the port (log 2, log 4). -/
structure State where
  /-- CMD, register 0 (R21): keeps no value, so it is 0 at every step boundary (log 8). -/
  cmd : Word
  /-- STATUS, register 1 (R22): ERR in bits 3:0, EACC in bit 8. -/
  status : Word
  /-- ERR_ARG, register 2 (R23). -/
  errArg : Word
  /-- VAL, register 3 (R24). -/
  val : Word
  /-- CRC, register 4 (R25). -/
  crc : Word
  /-- IN_LEN, register 5 (R27). -/
  inLen : Word
  /-- OUT_LEN, register 6 (R28). -/
  outLen : Word
  /-- MPI_LEN, register 7 (R29). -/
  mpiLen : Word
  /-- CONSUMED, register 8 (R30). -/
  consumed : Word
  /-- CAP, register 9 (R31): the parameter N of this machine (R7, log 1). -/
  cap : Word
  /-- IBUF, N bytes (R32). -/
  ibuf : Memory
  /-- MBUF, N bytes (R33). -/
  mbuf : Memory
  /-- OBUF, N + 2 bytes (R34). -/
  obuf : Memory
  /-- The operations the host has still to issue, next one first (R39; log 2). -/
  pending : List HostOp
  /-- What the last operation returned to the host (R41, R43; log 4). -/
  reply : Option Reply
deriving DecidableEq, Repr

/-- No fault: every operation has a defined result in every state, and an error of a command is a
status result, not a stop (R170, R188). Nothing raises a fault, so none is unsafe. -/
inductive Fault
deriving DecidableEq, Repr

/-- Why a step refuses. -/
inductive Refusal where
  /-- An instruction that has no meaning yet. No arm of `exec` raises it: all sixteen commands have
  their meaning. Safe. -/
  | notModelled (mnemonic : String)
  /-- The host issued an operation outside R40 to R44; `issue` raises it. Safe: such an operation
  does not exist in the hardware (R188, log 9). -/
  | notAHostOperation
deriving DecidableEq, Repr

/-- The machine of capacity N right after reset (R36, R200), with nothing pending. -/
def State.resetAt (cap : Word) : State where
  cmd := 0#32
  status := 0#32
  errArg := 0#32
  val := 0#32
  crc := crcInitValue
  inLen := 0#32
  outLen := 0#32
  mpiLen := 0#32
  consumed := 0#32
  cap := cap
  ibuf := []
  mbuf := []
  obuf := []
  pending := []
  reply := none

/-- The machine right after reset, for the recommended N (R7, R36; log 1). -/
def State.reset : State :=
  State.resetAt Config.defaultN

end Sys2Proof.Machine
end

