-- ==== Sys2Proof/Machine/Flags.lean ====
section
/-! DEFINITION. The fields of STATUS (spec 10_state.md R22), the error kinds and their codes (60_exceptions.md R171), and the two status updates (R172, R173). -/

namespace Sys2Proof.Machine

/-- The error kinds (R171). `encoding` and `range` keep a code and are never raised. -/
inductive ErrKind where
  | none
  | tooShort
  | illegal
  | lengthOverflow
  | encoding
  | range
deriving DecidableEq, Repr

/-- The code of an error kind in STATUS.ERR (R171). -/
def errCode : ErrKind → Word
  | .none => 0#32
  | .tooShort => 1#32
  | .illegal => 2#32
  | .lengthOverflow => 3#32
  | .encoding => 4#32
  | .range => 5#32

/-- The bits of STATUS.ERR (R22). -/
def errMask : Word := 0x0000000F#32

/-- The bit of STATUS.EACC (R22). -/
def eaccMask : Word := 0x00000100#32

/-- STATUS[3:0], the kind of the last command's error (R22). -/
def statusErr (s : State) : Nat :=
  (s.status &&& errMask).toNat

/-- STATUS[8], the sticky error flag (R22). -/
def statusEacc (s : State) : Bool :=
  s.status.getLsbD 8

/-- `ok()`: ERR and ERR_ARG become 0, EACC stays (R172). -/
def ok (s : State) : State :=
  { s with status := s.status &&& ~~~errMask, errArg := 0#32 }

/-- `raise K(arg)`: ERR and ERR_ARG report the error, EACC is set, nothing else changes (R173). -/
def raise (k : ErrKind) (arg : Word) (s : State) : State :=
  { s with status := (s.status &&& ~~~errMask) ||| errCode k ||| eaccMask, errArg := arg }

/-- The host's W1C write to STATUS clears EACC and nothing else (R22, R40). -/
def clearEacc (s : State) : State :=
  { s with status := s.status &&& ~~~eaccMask }

end Sys2Proof.Machine
end

