-- ==== Sys2Proof/Machine/Ops.lean ====
section
/-! DEFINITION. The operations over the byte buffers: one byte, MemRead and MemWrite (spec 00_scope.md R12), the capacities (R7), and the canonical form. Taking an error, which stands here for taking an exception (60_exceptions.md R177), is `raise` of Flags. -/

namespace Sys2Proof.Machine

/-- The bytes of a buffer at index a: 0x00 where none is listed (R36). -/
def Memory.read : Memory → Nat → Byte
  | [], _ => 0#8
  | (i, b) :: m, a => if i = a then b else Memory.read m a

/-- Put byte b at index a, keeping the canonical form: a zero byte is not listed. -/
def Memory.write : Memory → Nat → Byte → Memory
  | [], a, b => if b = 0#8 then [] else [(a, b)]
  | (i, c) :: m, a, b =>
    if a < i then (if b = 0#8 then (i, c) :: m else (a, b) :: (i, c) :: m)
    else if a = i then (if b = 0#8 then m else (a, b) :: m)
    else (i, c) :: Memory.write m a b

/-- `MemRead(S, a, n)`: the bytes `S[a..a+n)` (R12). -/
def Memory.readBytes (m : Memory) (a : Nat) : Nat → List Byte
  | 0 => []
  | n + 1 => Memory.read m a :: Memory.readBytes m (a + 1) n

/-- `MemWrite(S, a, bs)`: `S[a+i] <- bs[i]`, every other byte unchanged (R12). -/
def Memory.writeBytes (m : Memory) (a : Nat) : List Byte → Memory
  | [] => m
  | b :: bs => Memory.writeBytes (Memory.write m a b) (a + 1) bs

/-- The canonical form from index `lo` on: indices strictly rising, no zero byte. -/
def Memory.wfFrom (lo : Nat) : Memory → Bool
  | [] => true
  | (i, b) :: m => decide (lo ≤ i) && decide (b ≠ 0#8) && Memory.wfFrom (i + 1) m

/-- The canonical form of a buffer. -/
def Memory.wf (m : Memory) : Bool :=
  Memory.wfFrom 0 m

/-- Every listed index lies below the capacity. -/
def Memory.within (cap : Nat) (m : Memory) : Bool :=
  m.all fun c => decide (c.1 < cap)

/-- The contents of a buffer. -/
def bufOf (s : State) : BufId → Memory
  | .ibuf => s.ibuf
  | .mbuf => s.mbuf
  | .obuf => s.obuf

/-- The capacity of a buffer in bytes (R7). -/
def bufCapacity (s : State) : BufId → Nat
  | .ibuf => s.cap.toNat
  | .mbuf => s.cap.toNat
  | .obuf => s.cap.toNat + 2

end Sys2Proof.Machine
end

