-- ==== Sys2Proof/Machine/Operands.lean ====
section
/-! DEFINITION. The implicit operands of the commands (spec 30_encoding.md R82) and the places their results go (92_eei_decisions.md D13). -/

namespace Sys2Proof.Machine

/-- The input window `IBUF[0..IN_LEN)` (R17, R27). -/
def window (s : State) : List Byte :=
  Memory.readBytes s.ibuf 0 s.inLen.toNat

/-- The MPInt `MBUF[0..MPI_LEN)`, in its raw form (R29, R120). -/
def mpint (s : State) : List Byte :=
  Memory.readBytes s.mbuf 0 s.mpiLen.toNat

/-- The most recent output `OBUF[0..OUT_LEN)` (R28). -/
def output (s : State) : List Byte :=
  Memory.readBytes s.obuf 0 s.outLen.toNat

/-- A byte result: `MemWrite(OBUF, 0, bs)` and `OUT_LEN <- len(bs)` (R28, R34). -/
def putOutput (bs : List Byte) (s : State) : State :=
  { s with obuf := Memory.writeBytes s.obuf 0 bs, outLen := BitVec.ofNat 32 bs.length }

/-- A new MPInt: `MemWrite(MBUF, 0, bs)` and `MPI_LEN <- len(bs)` (R29, R33). -/
def putMpint (bs : List Byte) (s : State) : State :=
  { s with mbuf := Memory.writeBytes s.mbuf 0 bs, mpiLen := BitVec.ofNat 32 bs.length }

/-- A scalar result: `VAL <- v` (R24); every command's v fits 32 bits where the sizes of R35 hold (log 7). -/
def putVal (v : Nat) (s : State) : State :=
  { s with val := BitVec.ofNat 32 v }

/-- `CRC <- c` (R25). -/
def putCrc (c : Word) (s : State) : State :=
  { s with crc := c }

/-- `CONSUMED <- n` (R30). -/
def putConsumed (n : Nat) (s : State) : State :=
  { s with consumed := BitVec.ofNat 32 n }

end Sys2Proof.Machine
end

