-- ==== Sys2Proof/Machine/ByteEncoding.lean ====
section
/-! DEFINITION. The meanings of the BE234 commands (spec 42_byte_encoding.md). -/

namespace Sys2Proof.Machine

/-- `be_enc(n)`, the shared encode step (R150). -/
def beEnc (n : Nat) (s : State) : Host.Outcome State Fault Refusal :=
  .next (ok (putOutput (be n s.val.toNat) s))

/-- `be_dec(n)`, the shared decode step (R154): bytes of the window past the first n are ignored. -/
def beDec (n : Nat) (s : State) : Host.Outcome State Fault Refusal :=
  if s.inLen.toNat < n then .next (raise .tooShort s.inLen s)
  else .next (ok (putVal (beval (Memory.readBytes s.ibuf 0 n)) s))

/-- BE_ENC2 (R151). -/
def execBeEnc2 (s : State) : Host.Outcome State Fault Refusal :=
  beEnc 2 s

/-- BE_ENC3 (R152). -/
def execBeEnc3 (s : State) : Host.Outcome State Fault Refusal :=
  beEnc 3 s

/-- BE_ENC4 (R153). -/
def execBeEnc4 (s : State) : Host.Outcome State Fault Refusal :=
  beEnc 4 s

/-- BE_DEC2 (R155). -/
def execBeDec2 (s : State) : Host.Outcome State Fault Refusal :=
  beDec 2 s

/-- BE_DEC3 (R156). -/
def execBeDec3 (s : State) : Host.Outcome State Fault Refusal :=
  beDec 3 s

/-- BE_DEC4 (R157). -/
def execBeDec4 (s : State) : Host.Outcome State Fault Refusal :=
  beDec 4 s

end Sys2Proof.Machine
end

