-- ==== Sys2Proof/Machine/Crc24.lean ====
section
/-! DEFINITION. The meanings of the CRC24 commands (spec 40_crc24.md). -/

namespace Sys2Proof.Machine

/-- CRC_INIT (R100). -/
def execCrcInit (s : State) : Host.Outcome State Fault Refusal :=
  .next (ok (putCrc crcInitValue s))

/-- CRC_UPDATE (R103). -/
def execCrcUpdate (s : State) : Host.Outcome State Fault Refusal :=
  .next (ok (putCrc (crc24Fold s.crc (window s)) s))

/-- CRC_GEN (R104). It does not read the old CRC. -/
def execCrcGen (s : State) : Host.Outcome State Fault Refusal :=
  let c := crc24Fold crcInitValue (window s) &&& 0x00FFFFFF#32
  .next (ok (putOutput (be 3 c.toNat) (putCrc c s)))

/-- CRC_OUT (R105). -/
def execCrcOut (s : State) : Host.Outcome State Fault Refusal :=
  .next (ok (putOutput (be 3 (s.crc &&& 0x00FFFFFF#32).toNat) s))

end Sys2Proof.Machine
end

