-- ==== Sys2Proof/Machine/MpInt.lean ====
section
/-! DEFINITION. The meanings of the MPI16 commands (spec 41_mpint.md). -/

namespace Sys2Proof.Machine

/-- BITLEN (R121). -/
def execBitlen (s : State) : Host.Outcome State Fault Refusal :=
  .next (ok (putVal (bitLengthOf (window s)) s))

/-- MPI_LOAD (R123). -/
def execMpiLoad (s : State) : Host.Outcome State Fault Refusal :=
  .next (ok (putMpint (stripLZ (window s)) s))

/-- The byte length that the 2-byte prefix at the head of the input window declares (R125). -/
def declaredByteLen (s : State) : Nat :=
  ceil8 (beval (Memory.readBytes s.ibuf 0 2))

/-- MPI_DECODE (R125): both checks come before any write; the extracted bytes are not checked
against the declared bit length (R127). -/
def execMpiDecode (s : State) : Host.Outcome State Fault Refusal :=
  if s.inLen.toNat < 2 then .next (raise .tooShort s.inLen s)
  else if s.inLen.toNat < 2 + declaredByteLen s then .next (raise .tooShort s.inLen s)
  else
    .next (ok (putConsumed (2 + declaredByteLen s)
      (putMpint (Memory.readBytes s.ibuf 2 (declaredByteLen s)) s)))

/-- MPI_ENCODE (R128): a bit length that does not fit the 2-byte prefix raises LENGTH_OVERFLOW (R129). -/
def execMpiEncode (s : State) : Host.Outcome State Fault Refusal :=
  let l := bitLengthOf (mpint s)
  if 65535 < l then .next (raise .lengthOverflow (BitVec.ofNat 32 l) s)
  else .next (ok (putOutput (be 2 l ++ mpint s) s))

/-- MPI_WLEN (R130). -/
def execMpiWlen (s : State) : Host.Outcome State Fault Refusal :=
  .next (ok (putVal (2 + ceil8 (bitLengthOf (mpint s))) s))

/-- MPI_RAW (R132). -/
def execMpiRaw (s : State) : Host.Outcome State Fault Refusal :=
  .next (ok (putOutput (mpint s) s))

end Sys2Proof.Machine
end

