-- ==== Sys2Proof/Machine/Dispatch.lean ====
section
/-! DEFINITION. One arm per command: its meaning (spec 30_encoding.md R84). -/

namespace Sys2Proof.Machine

/-- Execute a command. -/
def exec (i : Instr) (s : State) : Host.Outcome State Fault Refusal :=
  match i with
  -- CRC24
  | .crcInit => Sys2Proof.Machine.execCrcInit s
  | .crcUpdate => Sys2Proof.Machine.execCrcUpdate s
  | .crcGen => Sys2Proof.Machine.execCrcGen s
  | .crcOut => Sys2Proof.Machine.execCrcOut s
  -- MPI16
  | .bitlen => Sys2Proof.Machine.execBitlen s
  | .mpiLoad => Sys2Proof.Machine.execMpiLoad s
  | .mpiDecode => Sys2Proof.Machine.execMpiDecode s
  | .mpiEncode => Sys2Proof.Machine.execMpiEncode s
  | .mpiWlen => Sys2Proof.Machine.execMpiWlen s
  | .mpiRaw => Sys2Proof.Machine.execMpiRaw s
  -- BE234
  | .beEnc2 => Sys2Proof.Machine.execBeEnc2 s
  | .beEnc3 => Sys2Proof.Machine.execBeEnc3 s
  | .beEnc4 => Sys2Proof.Machine.execBeEnc4 s
  | .beDec2 => Sys2Proof.Machine.execBeDec2 s
  | .beDec3 => Sys2Proof.Machine.execBeDec3 s
  | .beDec4 => Sys2Proof.Machine.execBeDec4 s

end Sys2Proof.Machine
end

