-- ==== Sys2Proof/Machine/HostPort.lean ====
section
/-! DEFINITION. The host port (spec 10_state.md R40 to R44): what each operation does to the core and what it returns. -/

namespace Sys2Proof.Machine

/-- Issue command word w (R21, R80): a word that is no command raises ILLEGAL(w) (R85). -/
def runCommand (w : Word) (s : State) : Host.Outcome State Fault Refusal :=
  match decode w with
  | .ok i => exec i s
  | .error _ => .next (raise .illegal w s)

/-- `HP_WR(r, v)` (R40). -/
def hpWr (r v : Word) (s : State) : Host.Outcome State Fault Refusal :=
  match r.toNat with
  | 0 => runCommand v s
  | 1 => .next (if v.getLsbD 8 then clearEacc s else s)
  | 3 => .next { s with val := v }
  | 5 => .next (if v.toNat ≤ s.cap.toNat then { s with inLen := v } else s)
  | _ => .next s

/-- `HP_RD(r)` (R41): the value returned; no state changes. -/
def hpRd (r : Word) (s : State) : Word :=
  match r.toNat with
  | 0 => 0#32
  | 1 => s.status
  | 2 => s.errArg
  | 3 => s.val
  | 4 => s.crc
  | 5 => s.inLen
  | 6 => s.outLen
  | 7 => s.mpiLen
  | 8 => s.consumed
  | 9 => s.cap
  | _ => 0#32

/-- `HP_WRB(i, b)` (R42). -/
def hpWrb (i : Nat) (b : Byte) (s : State) : State :=
  if i < s.cap.toNat then { s with ibuf := Memory.write s.ibuf i b } else s

/-- `HP_RDB(S, i)` (R43): the byte returned; no state changes. -/
def hpRdb (buf : BufId) (i : Nat) (s : State) : Byte :=
  if i < bufCapacity s buf then Memory.read (bufOf s buf) i else 0#8

/-- `HP_RESET()` (R44, R200): the core's state is the reset state of the same N; the host's pending
operations are not the core's state and stay (R202, log 12). -/
def hpReset (s : State) : State :=
  { State.resetAt s.cap with pending := s.pending, reply := s.reply }

/-- Perform one host-port operation; the value it returns, if any, becomes the reply (log 4). -/
def issue (op : HostOp) (s : State) : Host.Outcome State Fault Refusal :=
  match op with
  | .wr r v => hpWr r v s
  | .rd r => .next { s with reply := some (.word (hpRd r s)) }
  | .wrb i b => .next (hpWrb i b s)
  | .rdb buf i => .next { s with reply := some (.byte (hpRdb buf i s)) }
  | .reset => .next (hpReset s)
  | .outside => .refused .notAHostOperation

end Sys2Proof.Machine
end

