-- ==== Sys2Proof/Machine/Step.lean ====
section
/-! DEFINITION. One step of the machine: the core takes the host's next operation (spec 00_scope.md R17, R18; 20_memory.md R70). -/

namespace Sys2Proof.Machine

/-- One step: the oldest pending operation is taken off the host's list and performed, whole (R38,
R70). With no operation issued, the state does not change (R18, log 3). -/
def step (s : State) : Host.Outcome State Fault Refusal :=
  match s.pending with
  | [] => .next s
  | op :: rest => issue op { s with pending := rest, reply := none }

/-- The state in which the host's next operation is `HP_WR(0, w)`, w being a command word whose bits
are numbered as the opcode table numbers them; bits above `nbits` are 0. It stands for the host
issuing that command next (log 2). -/
def State.withFetchWord (s : State) (nbits w : Nat) : State :=
  { s with pending := .wr 0#32 (BitVec.ofNat 32 (w % 2 ^ nbits)) :: s.pending }

end Sys2Proof.Machine
end

