-- ==== Sys2Proof/Machine/Assembler.lean ====
section
/-! DEFINITION. The text form of host programs (spec 30_encoding.md R88) and the exact expansions of the pseudo-instructions (R89). -/

namespace Sys2Proof.Machine

/-- `WRB i, b0; WRB i+1, b1; ...`: bytes into IBUF from index i on. -/
def wrbFrom (i : Nat) : List Byte → List HostOp
  | [] => []
  | b :: bs => .wrb i b :: wrbFrom (i + 1) bs

/-- The host-port operations a line stands for (R88, R89). -/
def expand : AsmLine → List HostOp
  | .command i => [.wr 0#32 (encode i)]
  | .wr r v => [.wr r v]
  | .rd r => [.rd r]
  | .wrb i b => [.wrb i b]
  | .rdb buf i => [.rdb buf i]
  | .reset => [.reset]
  | .word w => [.wr 0#32 w]
  | .loadin bs => wrbFrom 0 bs ++ [.wr 5#32 (BitVec.ofNat 32 bs.length)]
  | .setval v => [.wr 3#32 v]
  | .clreacc => [.wr 1#32 0x100#32]

/-- The host-port operations of a program, line by line. -/
def assemble : List AsmLine → List HostOp
  | [] => []
  | l :: ls => expand l ++ assemble ls

end Sys2Proof.Machine
end

