-- ==== Sys2Proof/Safety.lean ====
section
/-! DEFINITION. What counts as a safe state and a safe run of PGPCORE, and the terms the claims use: the invariants, the two status results, and independent readings of the spec's tables and pseudocode. -/

namespace Sys2Proof.Machine

/-- The sizes and ranges that hold at every step boundary (R7, R21, R22, R35), with the canonical form
of the three buffers and their capacities (R32 to R34). -/
structure StateInv (s : State) : Prop where
  capacity : capacityWellFormed s.cap.toNat = true
  cmdZero : s.cmd = 0#32
  inLenLe : s.inLen.toNat ≤ s.cap.toNat
  mpiLenLe : s.mpiLen.toNat ≤ s.cap.toNat
  outLenLe : s.outLen.toNat ≤ s.cap.toNat + 2
  consumedLe : s.consumed.toNat ≤ s.cap.toNat
  crcLt : s.crc.toNat < 2 ^ 24
  errLe : statusErr s ≤ 3
  reservedZero : s.status &&& ~~~(errMask ||| eaccMask) = 0#32
  ibufWf : Memory.wf s.ibuf = true
  mbufWf : Memory.wf s.mbuf = true
  obufWf : Memory.wf s.obuf = true
  ibufWithin : Memory.within s.cap.toNat s.ibuf = true
  mbufWithin : Memory.within s.cap.toNat s.mbuf = true
  obufWithin : Memory.within (s.cap.toNat + 2) s.obuf = true

/-- The error report is true: ERR_ARG is what R23 and R171 say for the kind in STATUS.ERR. -/
structure TrueReport (s : State) : Prop where
  success : statusErr s = 0 → s.errArg = 0#32
  tooShort : statusErr s = 1 → s.errArg.toNat ≤ s.cap.toNat
  illegal : statusErr s = 2 → ∀ i : Instr, s.errArg ≠ encode i
  overflow : statusErr s = 3 → 65535 < s.errArg.toNat ∧ s.errArg.toNat ≤ 8 * s.cap.toNat

/-- The status result of a command that succeeds, bit by bit (R172): ERR and ERR_ARG are 0, the other
bits of STATUS are as before. -/
def Succeeded (s t : State) : Prop :=
  t.errArg = 0#32 ∧
    ∀ i < 32, t.status.getLsbD i = if i < 4 then false else s.status.getLsbD i

/-- The status result of a command that raises, bit by bit (R173): STATUS[3:0], STATUS[8] and ERR_ARG
report the error, and nothing else of the state differs. -/
def Raised (k : ErrKind) (arg : Word) (s t : State) : Prop :=
  t = { s with status := t.status, errArg := arg } ∧
    ∀ i < 32, t.status.getLsbD i =
      if i < 4 then (errCode k).getLsbD i else if i = 8 then true else s.status.getLsbD i

/-- The error that the table of R171 gives a command in a state, with its argument; `none` where the
command succeeds. -/
def commandError (i : Instr) (s : State) : Option (ErrKind × Nat) :=
  let n := s.inLen.toNat
  let declared := (Memory.read s.ibuf 0).toNat * 256 + (Memory.read s.ibuf 1).toNat
  let short (c : Prop) [Decidable c] : Option (ErrKind × Nat) :=
    if c then some (.tooShort, n) else none
  match i with
  | .mpiDecode => short (n < 2 ∨ n < 2 + (declared + 7) / 8)
  | .beDec2 => short (n < 2)
  | .beDec3 => short (n < 3)
  | .beDec4 => short (n < 4)
  | .mpiEncode =>
    if 65535 < bitLengthOf (mpint s) then some (.lengthOverflow, bitLengthOf (mpint s)) else none
  | .crcInit | .crcUpdate | .crcGen | .crcOut => none
  | .bitlen | .mpiLoad | .mpiWlen | .mpiRaw => none
  | .beEnc2 | .beEnc3 | .beEnc4 => none

/-- The commands that the register table of 10_state.md section 2 lists as writing CRC. -/
def writesCrc (i : Instr) : Bool :=
  i ∈ [Instr.crcInit, .crcUpdate, .crcGen]

/-- The commands listed as writing VAL. -/
def writesVal (i : Instr) : Bool :=
  i ∈ [Instr.beDec2, .beDec3, .beDec4, .bitlen, .mpiWlen]

/-- The commands listed as writing OUT_LEN; they are those that write OBUF (R28, R34). -/
def writesOutput (i : Instr) : Bool :=
  i ∈ [Instr.crcGen, .crcOut, .beEnc2, .beEnc3, .beEnc4, .mpiEncode, .mpiRaw]

/-- The commands listed as writing MPI_LEN; they are those that write MBUF (R29, R33). -/
def writesMpint (i : Instr) : Bool :=
  i ∈ [Instr.mpiLoad, .mpiDecode]

/-- The one command listed as writing CONSUMED (R30). -/
def writesConsumed (i : Instr) : Bool :=
  i = .mpiDecode

/-- u is s after the host has supplied the window bs, by whatever writes to IBUF and IN_LEN (R83). -/
def Supplied (s : State) (bs : List Byte) (u : State) : Prop :=
  u = { s with ibuf := u.ibuf, inLen := u.inLen } ∧ window u = bs

/-- t is s after a CRC_UPDATE over each window of the list in turn, the host supplying each (R106). -/
inductive Streamed : List (List Byte) → State → State → Prop where
  | done (s : State) : Streamed [] s s
  | fold {w : List Byte} {ws : List (List Byte)} {s u v t : State} (supplied : Supplied s w u)
      (updated : exec .crcUpdate u = .next v) (rest : Streamed ws v t) : Streamed (w :: ws) s t

/-- Two states that differ only in buffer bytes outside the input window and the MPInt. -/
def AgreeOnOperands (s s' : State) : Prop :=
  s' = { s with ibuf := s'.ibuf, mbuf := s'.mbuf, obuf := s'.obuf } ∧
    window s' = window s ∧ mpint s' = mpint s

/-- R101's inner repeat on unbounded naturals, as R10 defines the operators. -/
def crcBitNat (c : Nat) : Nat :=
  if (c <<< 1) &&& 0x1000000 ≠ 0 then (c <<< 1) ^^^ 0x1864CFB else c <<< 1

/-- R101's pseudocode for one byte on unbounded naturals. -/
def crcByteNat (c : Nat) (b : Byte) : Nat :=
  Nat.repeat crcBitNat 8 (c ^^^ (b.toNat <<< 16))

/-- R101's `crc24_fold(c, s)` on unbounded naturals. -/
def crcFoldNat (c : Nat) : List Byte → Nat
  | [] => c
  | b :: s => crcFoldNat (crcByteNat c b) s

/-- A safe run: however many steps are taken, none stops (R188). -/
def NeverStops (s : State) : Prop :=
  ∀ k : Nat, ∃ t : State, Host.Core.run Sys2Proof.core k s = .next t

end Sys2Proof.Machine
end

