-- ==== Sys2Proof/Certificates/Slice0/Obligations.lean ====
section
/-! DEFINITION. The statements about PGPCORE for the provers, each from the numbered rules of the spec it names. -/

open Sys2Proof Sys2Proof.Machine

/-! ### Reset and the invariants -/

/-- R36 and R200: the reset state, for every capacity N; both reset events leave it. -/
def Obligations.BothResetsLeaveTheResetValues : Prop :=
  (∃ n : Word, capacityWellFormed n.toNat = true ∧ State.reset = State.resetAt n) ∧
    (∀ n : Word,
      let s := State.resetAt n
      s.cmd = 0#32 ∧ s.status = 0#32 ∧ s.errArg = 0#32 ∧ s.val = 0#32 ∧ s.inLen = 0#32 ∧
        s.outLen = 0#32 ∧ s.mpiLen = 0#32 ∧ s.consumed = 0#32 ∧ s.crc = 0x00B704CE#32 ∧
        hpRd 9#32 s = n ∧ statusEacc s = false ∧
        ∀ buf i, Memory.read (bufOf s buf) i = 0#8) ∧
    ∀ (s : State) (rest : List HostOp), s.pending = .reset :: rest →
      step s = .next { State.resetAt s.cap with pending := rest, reply := none }

/-- The state after reset meets both invariants, for every legal N. That `State.reset` has
N = 8194 is the model's choice (log 1). -/
def Obligations.ResetMeetsTheInvariants : Prop :=
  StateInv State.reset ∧ TrueReport State.reset ∧
    ∀ n : Word, capacityWellFormed n.toNat = true →
      StateInv (State.resetAt n) ∧ TrueReport (State.resetAt n)

/-- R35 (with R26 to R30): the sizes and ranges hold at every step boundary: after reset, and after
every step from a state in which they hold, whatever operation the host issues. -/
def Obligations.SizesAndRangesHoldAtEveryStepBoundary : Prop :=
  (∀ n : Word, capacityWellFormed n.toNat = true → StateInv (State.resetAt n)) ∧
    ∀ s t : State, StateInv s → step s = .next t → StateInv t

/-- R23, R171 and R174 over every step: ERR_ARG always says what the kind in STATUS.ERR promises. -/
def Obligations.EveryStepKeepsTheErrorReportTrue : Prop :=
  ∀ s t : State, StateInv s → TrueReport s → step s = .next t → TrueReport t

/-! ### CRC24 -/

/-- R100, with its frame: only CRC, STATUS and ERR_ARG are written; CRC_INIT is idempotent. -/
def Obligations.CrcInitResetsTheAccumulator : Prop :=
  decode 0x00000001#32 = .ok .crcInit ∧ ∀ s : State, ∃ t, exec .crcInit s = .next t ∧
    t = { s with crc := 0x00B704CE#32, status := t.status, errArg := 0#32 } ∧
    Succeeded s t ∧ exec .crcInit t = .next t

/-- R101: the fold on the 32-bit register is the pseudocode on unbounded naturals, with the two
constants of the source. -/
def Obligations.RegisterFoldIsTheUnboundedFold : Prop :=
  crcInitValue.toNat = 0xB704CE ∧ crcPoly.toNat = 0x1864CFB ∧
    ∀ (c : Word) (s : List Byte), c.toNat < 2 ^ 24 →
      (crc24Fold c s).toNat = crcFoldNat c.toNat s

/-- R102: the value is below 2^24 after every inner repeat, and so after the fold; the final mask
never changes it. -/
def Obligations.FoldStaysBelowBitTwentyFour : Prop :=
  (∀ (c : Nat) (b : Byte), c < 2 ^ 24 → c ^^^ (b.toNat <<< 16) < 2 ^ 24) ∧
    (∀ c : Nat, c < 2 ^ 24 → c <<< 1 < 2 ^ 25 ∧ crcBitNat c < 2 ^ 24) ∧
    ∀ (c : Word) (s : List Byte), c.toNat < 2 ^ 24 →
      (crc24Fold c s).toNat < 2 ^ 24 ∧ crc24Fold c s &&& 0x00FFFFFF#32 = crc24Fold c s

/-- R103, with its frame: CRC becomes the fold of the window from the old CRC; an empty window leaves
it. Invariant: `StateInv` (CRC below 2^24, R26). -/
def Obligations.CrcUpdateFoldsTheWindow : Prop :=
  decode 0x00000002#32 = .ok .crcUpdate ∧ ∀ s : State, StateInv s → ∃ t, exec .crcUpdate s = .next t ∧
    t = { s with crc := t.crc, status := t.status, errArg := 0#32 } ∧
    t.crc.toNat = crcFoldNat s.crc.toNat (window s) ∧
    (s.inLen = 0#32 → t.crc = s.crc) ∧ Succeeded s t

/-- R104, with its frame: CRC and the first three bytes of OBUF hold the checksum of the window; the
old CRC is not read; every other byte of OBUF reads as before. -/
def Obligations.CrcGenWritesTheChecksumOfTheWindow : Prop :=
  decode 0x00000003#32 = .ok .crcGen ∧ ∀ s : State, Memory.wf s.obuf = true → ∃ t, exec .crcGen s = .next t ∧
    t = { s with crc := t.crc, obuf := t.obuf, outLen := 3#32, status := t.status, errArg := 0#32 } ∧
    t.crc.toNat = crcFoldNat 0xB704CE (window s) &&& 0xFFFFFF ∧
    (∀ a, Memory.read t.obuf a =
      if a < 3 then BitVec.ofNat 8 (t.crc.toNat / 2 ^ (8 * (2 - a))) else Memory.read s.obuf a) ∧
    (s.inLen = 0#32 → t.crc = 0x00B704CE#32) ∧ Succeeded s t

/-- R105, with its frame: the first three bytes of OBUF are the accumulator, big-endian. -/
def Obligations.CrcOutSerialisesTheAccumulator : Prop :=
  decode 0x00000004#32 = .ok .crcOut ∧ ∀ s : State, Memory.wf s.obuf = true → ∃ t, exec .crcOut s = .next t ∧
    t = { s with obuf := t.obuf, outLen := 3#32, status := t.status, errArg := 0#32 } ∧
    (∀ a, Memory.read t.obuf a =
      if a < 3 then BitVec.ofNat 8 ((s.crc.toNat &&& 0xFFFFFF) / 2 ^ (8 * (2 - a)))
      else Memory.read s.obuf a) ∧
    Succeeded s t

/-- R106: CRC_INIT, then CRC_UPDATE over any list of windows, then CRC_OUT leave the CRC, the three
output bytes and the output length that CRC_GEN leaves over the windows joined. -/
def Obligations.StreamedChecksumEqualsOneShot : Prop :=
  (∀ (c : Word) (s u : List Byte), crc24Fold c (s ++ u) = crc24Fold (crc24Fold c s) u) ∧
    ∀ (ws : List (List Byte)) (s s₁ t₁ t u g : State), StateInv s → exec .crcInit s = .next s₁ →
      Streamed ws s₁ t₁ → exec .crcOut t₁ = .next t →
      StateInv u → window u = ws.flatten → exec .crcGen u = .next g →
      t.crc = g.crc ∧ t.outLen = g.outLen ∧ ∀ a < 3, Memory.read t.obuf a = Memory.read g.obuf a

/-- R108: a message followed by its own checksum folds to 0, and CRC_GEN over such a window leaves
CRC = 0. -/
def Obligations.MessageWithItsChecksumHasResidueZero : Prop :=
  (∀ m : List Byte,
      crc24Fold crcInitValue (m ++ be 3 (crc24Fold crcInitValue m).toNat) = 0#32) ∧
    ∀ (s : State) (m : List Byte),
      window s = m ++ be 3 (crc24Fold crcInitValue m).toNat →
      ∃ t, exec .crcGen s = .next t ∧ t.crc = 0#32

/-! ### MPI16 -/

/-- R121 and R122, with the frame: VAL is 0 where every byte of the window is 0; else, with the first
non-zero byte at index k and its highest set bit at h, it is `h + 1 + 8 * (bytes after k)`. -/
def Obligations.BitlenWritesTheBitLengthOfTheWindow : Prop :=
  decode 0x00000020#32 = .ok .bitlen ∧ ∀ s : State, StateInv s → ∃ t, exec .bitlen s = .next t ∧
    t = { s with val := t.val, status := t.status, errArg := 0#32 } ∧
    ((∀ k < s.inLen.toNat, Memory.read s.ibuf k = 0#8) → t.val = 0#32) ∧
    (∀ k h : Nat, k < s.inLen.toNat → (∀ j < k, Memory.read s.ibuf j = 0#8) →
      2 ^ h ≤ (Memory.read s.ibuf k).toNat → (Memory.read s.ibuf k).toNat < 2 ^ (h + 1) →
      t.val.toNat = h + 1 + 8 * (s.inLen.toNat - k - 1)) ∧
    Succeeded s t

/-- R123, with its frame: the window without its k leading zero bytes becomes the MPInt; the bytes of
MBUF past it read as before. -/
def Obligations.MpiLoadStripsLeadingZeros : Prop :=
  decode 0x00000021#32 = .ok .mpiLoad ∧ ∀ s : State, StateInv s → ∃ t, exec .mpiLoad s = .next t ∧
    t = { s with mbuf := t.mbuf, mpiLen := t.mpiLen, status := t.status, errArg := 0#32 } ∧
    (∃ k ≤ s.inLen.toNat, (∀ j < k, Memory.read s.ibuf j = 0#8) ∧
      (k < s.inLen.toNat → Memory.read s.ibuf k ≠ 0#8) ∧
      t.mpiLen.toNat = s.inLen.toNat - k ∧
      ∀ a, Memory.read t.mbuf a =
        if a < s.inLen.toNat - k then Memory.read s.ibuf (k + a) else Memory.read s.mbuf a) ∧
    Succeeded s t

/-- R124: after MPI_LOAD the MPInt is canonical, and its bit length takes exactly MPI_LEN bytes. -/
def Obligations.MpiLoadLeavesACanonicalMpint : Prop :=
  ∀ s : State, StateInv s → ∃ t, exec .mpiLoad s = .next t ∧
    (t.mpiLen = 0#32 ∨ Memory.read t.mbuf 0 ≠ 0#8) ∧
    ceil8 (bitLengthOf (mpint t)) = t.mpiLen.toNat

/-- R125 to R127, with the frame: with L the big-endian prefix and byteLen its bytes, the two checks in
order raise TOO_SHORT with the window length; else the byteLen bytes after the prefix become the
MPInt, whatever they are, and CONSUMED counts the bytes read. -/
def Obligations.MpiDecodeChecksThenExtracts : Prop :=
  decode 0x00000022#32 = .ok .mpiDecode ∧ ∀ s : State, StateInv s →
    let n := s.inLen.toNat
    let byteLen :=
      ((Memory.read s.ibuf 0).toNat * 256 + (Memory.read s.ibuf 1).toNat + 7) / 8
    (n < 2 ∨ n < 2 + byteLen →
      ∃ t, exec .mpiDecode s = .next t ∧ Raised .tooShort s.inLen s t) ∧
    (2 + byteLen ≤ n →
      ∃ t, exec .mpiDecode s = .next t ∧
        t = { s with mbuf := t.mbuf, mpiLen := t.mpiLen, consumed := t.consumed,
                     status := t.status, errArg := 0#32 } ∧
        t.mpiLen.toNat = byteLen ∧ t.consumed.toNat = 2 + byteLen ∧
        (∀ a, Memory.read t.mbuf a =
          if a < byteLen then Memory.read s.ibuf (2 + a) else Memory.read s.mbuf a) ∧
        Succeeded s t)

/-- R128 and R129, with the frame: with L the bit length of the MPInt, L above 65535 raises
LENGTH_OVERFLOW(L); else OBUF holds L in two big-endian bytes and then the raw bytes verbatim. -/
def Obligations.MpiEncodeEmitsPrefixAndRawBytes : Prop :=
  decode 0x00000023#32 = .ok .mpiEncode ∧ ∀ s : State, StateInv s →
    let l := bitLengthOf (mpint s)
    (65535 < l →
      ∃ t, exec .mpiEncode s = .next t ∧ t.errArg.toNat = l ∧
        Raised .lengthOverflow t.errArg s t) ∧
    (l ≤ 65535 →
      ∃ t, exec .mpiEncode s = .next t ∧
        t = { s with obuf := t.obuf, outLen := t.outLen, status := t.status, errArg := 0#32 } ∧
        t.outLen.toNat = 2 + s.mpiLen.toNat ∧
        (∀ a, Memory.read t.obuf a =
          if a = 0 then BitVec.ofNat 8 (l / 256)
          else if a = 1 then BitVec.ofNat 8 (l % 256)
          else if a < 2 + s.mpiLen.toNat then Memory.read s.mbuf (a - 2)
          else Memory.read s.obuf a) ∧
        Succeeded s t)

/-- R130, with its frame: VAL is 2 plus the bytes that the MPInt's bit length takes, also where
MPI_ENCODE would overflow. -/
def Obligations.MpiWlenWritesTheWireLength : Prop :=
  decode 0x00000024#32 = .ok .mpiWlen ∧ ∀ s : State, StateInv s → ∃ t, exec .mpiWlen s = .next t ∧
    t = { s with val := t.val, status := t.status, errArg := 0#32 } ∧
    t.val.toNat = 2 + ceil8 (bitLengthOf (mpint s)) ∧ Succeeded s t

/-- R131: with z leading zero bytes in the MPInt, MPI_WLEN gives `2 + MPI_LEN - z` and a successful
MPI_ENCODE gives OUT_LEN = `2 + MPI_LEN`; the two agree exactly when z = 0. -/
def Obligations.WireLengthAgreesWithEncodeExactlyWhenCanonical : Prop :=
  ∀ (s w e : State) (z : Nat), StateInv s → z ≤ s.mpiLen.toNat →
    (∀ j < z, Memory.read s.mbuf j = 0#8) →
    (z < s.mpiLen.toNat → Memory.read s.mbuf z ≠ 0#8) →
    exec .mpiWlen s = .next w → exec .mpiEncode s = .next e → statusErr e = 0 →
    w.val.toNat = 2 + s.mpiLen.toNat - z ∧ e.outLen.toNat = 2 + s.mpiLen.toNat ∧
      (w.val = e.outLen ↔ z = 0)

/-- R132, with its frame: the raw form is copied to OBUF, leading zeros included. -/
def Obligations.MpiRawCopiesTheRawForm : Prop :=
  decode 0x00000025#32 = .ok .mpiRaw ∧ ∀ s : State, StateInv s → ∃ t, exec .mpiRaw s = .next t ∧
    t = { s with obuf := t.obuf, outLen := s.mpiLen, status := t.status, errArg := 0#32 } ∧
    (∀ a, Memory.read t.obuf a =
      if a < s.mpiLen.toNat then Memory.read s.mbuf a else Memory.read s.obuf a) ∧
    Succeeded s t

/-- R133: load, encode, feed the output back, decode, measure: the raw bytes come back, and CONSUMED
and the wire length agree, for every byte list within the rule's bounds. -/
def Obligations.LoadEncodeDecodeRoundTrips : Prop :=
  ∀ (b : List Byte) (s : State), StateInv s → window s = b → bitLengthOf b ≤ 65535 →
    2 + (stripLZ b).length ≤ s.cap.toNat →
    ∃ t₁ t₂, exec .mpiLoad s = .next t₁ ∧ exec .mpiEncode t₁ = .next t₂ ∧
      ∀ u, StateInv u → Supplied t₂ (output t₂) u →
        ∃ t₃ t₄, exec .mpiDecode u = .next t₃ ∧ exec .mpiWlen t₃ = .next t₄ ∧
          mpint t₄ = stripLZ b ∧ t₄.consumed.toNat = 2 + (stripLZ b).length ∧
          t₄.val = t₄.consumed ∧ statusErr t₃ = 0 ∧ statusErr t₄ = 0

/-- R134: the zero MPInt round-trips exactly, through the wire form [0x00, 0x00]. -/
def Obligations.ZeroMpintRoundTrips : Prop :=
  (∀ s : State, StateInv s → (∀ b ∈ window s, b = 0#8) →
    ∃ t₁ t₂ t₃, exec .mpiLoad s = .next t₁ ∧ t₁.mpiLen = 0#32 ∧
      exec .mpiEncode t₁ = .next t₂ ∧ output t₂ = [0x00#8, 0x00#8] ∧
      exec .mpiWlen t₁ = .next t₃ ∧ t₃.val = 2#32) ∧
    ∀ s : State, StateInv s → window s = [0x00#8, 0x00#8] →
      ∃ t₁ t₂, exec .mpiDecode s = .next t₁ ∧ t₁.mpiLen = 0#32 ∧ t₁.consumed = 2#32 ∧
        exec .mpiWlen t₁ = .next t₂ ∧ t₂.val = 2#32

/-- R135: decode then encode need not reproduce the input: [0x00, 0x10, 0x00, 0x01] comes back as
[0x00, 0x01, 0x00, 0x01], from every state with that window. -/
def Obligations.DecodeThenEncodeRecomputesThePrefix : Prop :=
  ∀ s : State, StateInv s → window s = [0x00#8, 0x10#8, 0x00#8, 0x01#8] →
    ∃ t₁ t₂, exec .mpiDecode s = .next t₁ ∧ mpint t₁ = [0x00#8, 0x01#8] ∧ t₁.mpiLen = 2#32 ∧
      exec .mpiEncode t₁ = .next t₂ ∧ output t₂ = [0x00#8, 0x01#8, 0x00#8, 0x01#8]

/-! ### BE234 -/

/-- R150 to R153, with the frame: for each width n, OBUF holds the n low bytes of VAL, most
significant first; the higher bits of VAL are dropped without an error. -/
def Obligations.BeEncWritesTheLowBytesOfVal : Prop :=
  ∀ (w : Word) (i : Instr) (n : Nat),
    (w, i, n) ∈ [(0x12#32, Instr.beEnc2, 2), (0x13#32, Instr.beEnc3, 3), (0x14#32, Instr.beEnc4, 4)] →
    decode w = .ok i ∧ ∀ s : State, Memory.wf s.obuf = true → ∃ t, exec i s = .next t ∧
      t = { s with obuf := t.obuf, outLen := BitVec.ofNat 32 n, status := t.status,
                   errArg := 0#32 } ∧
      (∀ a, Memory.read t.obuf a =
        if a < n then BitVec.ofNat 8 (s.val.toNat / 2 ^ (8 * (n - 1 - a)))
        else Memory.read s.obuf a) ∧
      beval (output t) = s.val.toNat % 2 ^ (8 * n) ∧ Succeeded s t

/-- R154 to R157, with the frame: for each width n, a window shorter than n raises TOO_SHORT(IN_LEN);
else VAL is the weighted sum of the first n bytes of IBUF, zero-extended. -/
def Obligations.BeDecReadsTheFirstBytesOfTheWindow : Prop :=
  ∀ s : State,
    let b (k : Nat) : Nat := (Memory.read s.ibuf k).toNat
    ∀ (w : Word) (i : Instr) (n v : Nat),
      (w, i, n, v) ∈ [(0x1A#32, Instr.beDec2, 2, b 0 * 256 + b 1),
        (0x1B#32, Instr.beDec3, 3, b 0 * 65536 + b 1 * 256 + b 2),
        (0x1C#32, Instr.beDec4, 4, b 0 * 2 ^ 24 + b 1 * 2 ^ 16 + b 2 * 2 ^ 8 + b 3)] →
      decode w = .ok i ∧
      (s.inLen.toNat < n → ∃ t, exec i s = .next t ∧ Raised .tooShort s.inLen s t) ∧
      (n ≤ s.inLen.toNat → ∃ t, exec i s = .next t ∧
        t = { s with val := t.val, status := t.status, errArg := 0#32 } ∧
        t.val.toNat = v ∧ Succeeded s t)

/-- R158: encode and decode of one width are inverse, up to the bits of VAL that the width drops; the
second law is of a decode that succeeds (the window holds n bytes). -/
def Obligations.FixedWidthCodecsAreInverse : Prop :=
  ∀ (enc dec : Instr) (n : Nat),
    (enc, dec, n) ∈ [(Instr.beEnc2, Instr.beDec2, 2), (Instr.beEnc3, Instr.beDec3, 3),
      (Instr.beEnc4, Instr.beDec4, 4)] →
    (∀ s t u : State, StateInv s → exec enc s = .next t → Supplied t (output t) u →
      ∃ v, exec dec u = .next v ∧ v.val.toNat = s.val.toNat % 2 ^ (8 * n)) ∧
    ∀ s t : State, StateInv s → n ≤ s.inLen.toNat → exec dec s = .next t →
      ∃ v, exec enc t = .next v ∧ ∀ a < n, Memory.read v.obuf a = Memory.read s.ibuf a

/-- R15: the derived facts about the helpers. -/
def Obligations.HelperFactsHold : Prop :=
  (∀ n v : Nat, beval (be n v) = v % 2 ^ (8 * n)) ∧
    (∀ (n : Nat) (s : List Byte), s.length = n → be n (beval s) = s) ∧
    (∀ s : List Byte, bitLengthOf s = bitLengthOf (stripLZ s)) ∧
    (∀ s : List Byte, ceil8 (bitLengthOf s) = (stripLZ s).length) ∧
    (∀ s : List Byte, bitLengthOf s ≤ 8 * s.length) ∧
    ∀ s : List Byte, beval s < 2 ^ bitLengthOf s ∧
      (0 < bitLengthOf s → 2 ^ (bitLengthOf s - 1) ≤ beval s)

/-! ### Errors and whole-machine rules -/

/-- R171: the codes of the error kinds, and which command raises which kind, with which argument, in
exactly which states; any word that is no command raises ILLEGAL with the word. -/
def Obligations.ErrorsAreExactlyThoseOfTheTable : Prop :=
  ([ErrKind.none, .tooShort, .illegal, .lengthOverflow, .encoding, .range].map
      fun k => (errCode k).toNat) = [0, 1, 2, 3, 4, 5] ∧
    (∀ (i : Instr) (s : State), StateInv s → ∃ t, exec i s = .next t ∧
      match commandError i s with
      | none => Succeeded s t
      | some (k, arg) => t.errArg.toNat = arg ∧ Raised k t.errArg s t) ∧
    ∀ (w : Word) (s : State), (∀ i : Instr, w ≠ encode i) →
      ∃ t, runCommand w s = .next t ∧ Raised .illegal w s t

/-- R173: a raising command changes nothing but STATUS[3:0], STATUS[8] and ERR_ARG, and sets EACC. -/
def Obligations.ARaisingCommandChangesOnlyItsReport : Prop :=
  ∀ (w : Word) (s t : State), runCommand w s = .next t → statusErr t ≠ 0 →
    ∃ (k : ErrKind) (arg : Word), k ≠ .none ∧ statusErr t = (errCode k).toNat ∧ Raised k arg s t

/-- R174: EACC is sticky: a step clears it exactly when it is the host's W1C write to STATUS or a
reset; a command, successful or not, never does. -/
def Obligations.OnlyTheHostOrResetClearsEacc : Prop :=
  ∀ s t : State, step s = .next t → statusEacc s = true →
    (statusEacc t = false ↔
      (∃ v rest, s.pending = .wr 1#32 v :: rest ∧ v.getLsbD 8 = true) ∨
        ∃ rest, s.pending = .reset :: rest)

/-- R188: every operation the hardware has, and every command word, has a result in every state: from
any state whose pending operations are those of R40 to R44, no run stops; the one refusal is for
an operation outside them. -/
def Obligations.NoOperationOfTheHostPortStops : Prop :=
  (∀ (w : Word) (s : State), ∃ t, runCommand w s = .next t) ∧
    (∀ s : State, (∀ op ∈ s.pending, op.wellFormed = true) → NeverStops s) ∧
    ∀ (s : State) (rest : List HostOp), s.pending = .outside :: rest →
      step s = .refused .notAHostOperation

/-- The column "written by commands" of the register table (10_state.md section 2), R32 and R74: a
command writes a register or a buffer only if the table lists it; none writes IBUF or IN_LEN. -/
def Obligations.CommandsWriteOnlyWhatTheTableLists : Prop :=
  ∀ (i : Instr) (s t : State), exec i s = .next t →
    t.cmd = s.cmd ∧ t.cap = s.cap ∧ t.ibuf = s.ibuf ∧ t.inLen = s.inLen ∧
      t.pending = s.pending ∧ t.reply = s.reply ∧
      (writesCrc i = false → t.crc = s.crc) ∧
      (writesVal i = false → t.val = s.val) ∧
      (writesOutput i = false → t.outLen = s.outLen ∧ t.obuf = s.obuf) ∧
      (writesMpint i = false → t.mpiLen = s.mpiLen ∧ t.mbuf = s.mbuf) ∧
      (writesConsumed i = false → t.consumed = s.consumed)

/-- R27, R32, R120 and I15 of 93_implementation_defined.md: what a command leaves in the registers,
the MPInt and the output depends on the registers, the input window and the MPInt alone, and on no
other byte of a buffer. -/
def Obligations.ResultsDependOnlyOnTheOperands : Prop :=
  ∀ (i : Instr) (s s' t t' : State), StateInv s → StateInv s' → AgreeOnOperands s s' →
    exec i s = .next t → exec i s' = .next t' →
    AgreeOnOperands t t' ∧ (writesOutput i = true → statusErr t = 0 → output t = output t')

/-! ### The host port -/

/-- R40: a host write, by register number. -/
def Obligations.HostWriteFollowsTheRegisterTable : Prop :=
  ∀ (s : State) (r v : Word) (rest : List HostOp), s.pending = .wr r v :: rest →
    let b := { s with pending := rest, reply := none }
    (r.toNat = 0 → step s = runCommand v b) ∧
    (r.toNat = 1 → v.getLsbD 8 = true → ∃ t, step s = .next t ∧
      t = { b with status := t.status } ∧
      ∀ i < 32, t.status.getLsbD i = if i = 8 then false else b.status.getLsbD i) ∧
    (r.toNat = 1 → v.getLsbD 8 = false → step s = .next b) ∧
    (r.toNat = 3 → step s = .next { b with val := v }) ∧
    (r.toNat = 5 → v.toNat ≤ s.cap.toNat → step s = .next { b with inLen := v }) ∧
    (r.toNat = 5 → s.cap.toNat < v.toNat → step s = .next b) ∧
    (r.toNat ∉ [0, 1, 3, 5] → step s = .next b)

/-- R41: a host read returns the register's value and changes nothing of the core. -/
def Obligations.HostReadReturnsTheRegister : Prop :=
  ∀ (s : State) (r : Word) (rest : List HostOp), s.pending = .rd r :: rest →
    let regs : List Word := [0#32, s.status, s.errArg, s.val, s.crc, s.inLen, s.outLen, s.mpiLen,
      s.consumed, s.cap]
    step s = .next { s with pending := rest, reply := some (.word (regs.getD r.toNat 0#32)) }

/-- R42: a host byte write sets one byte of IBUF, or is ignored at an index past it. -/
def Obligations.HostByteWriteSetsOneByteOfIbuf : Prop :=
  ∀ (s : State) (i : Nat) (b : Byte) (rest : List HostOp), Memory.wf s.ibuf = true →
    s.pending = .wrb i b :: rest → ∃ t, step s = .next t ∧
      t = { s with ibuf := t.ibuf, pending := rest, reply := none } ∧
      ∀ a, Memory.read t.ibuf a =
        if a = i ∧ i < s.cap.toNat then b else Memory.read s.ibuf a

/-- R43: a host byte read returns the byte of the buffer, or 0 at an index past its capacity, and
changes nothing of the core. -/
def Obligations.HostByteReadReturnsTheByte : Prop :=
  ∀ (s : State) (buf : BufId) (i : Nat) (rest : List HostOp), s.pending = .rdb buf i :: rest →
    let m := match buf with | .ibuf => s.ibuf | .mbuf => s.mbuf | .obuf => s.obuf
    let size := match buf with
      | .ibuf => s.cap.toNat
      | .mbuf => s.cap.toNat
      | .obuf => s.cap.toNat + 2
    step s = .next { s with pending := rest,
                            reply := some (.byte (if i < size then Memory.read m i else 0#8)) }

/-- R45: apart from a command and a reset, no host operation changes CRC, OUT_LEN, MPI_LEN, CONSUMED,
ERR_ARG, STATUS.ERR, MBUF or OBUF. -/
def Obligations.TheHostCannotWriteResultsDirectly : Prop :=
  ∀ s t : State, step s = .next t →
    (∀ w rest, s.pending ≠ .wr 0#32 w :: rest) → (∀ rest, s.pending ≠ .reset :: rest) →
    t.crc = s.crc ∧ t.outLen = s.outLen ∧ t.mpiLen = s.mpiLen ∧ t.consumed = s.consumed ∧
      t.errArg = s.errArg ∧ statusErr t = statusErr s ∧ t.mbuf = s.mbuf ∧ t.obuf = s.obuf

/-- R66: a read changes nothing of the core and, repeated, returns the same value; a repeated write
of VAL, of IN_LEN or of a byte leaves what the first one left. -/
def Obligations.ReadsAndPlainWritesAreIdempotent : Prop :=
  ∀ (s t : State) (op : HostOp) (rest : List HostOp), StateInv s →
    (∃ r, op = .rd r) ∨ (∃ buf i, op = .rdb buf i) ∨ (∃ v, op = .wr 3#32 v) ∨
      (∃ v, op = .wr 5#32 v) ∨ (∃ i b, op = .wrb i b) →
    s.pending = op :: op :: rest → step s = .next t →
    step t = .next { t with pending := rest } ∧
      ((∃ r, op = .rd r) ∨ (∃ buf i, op = .rdb buf i) →
        t = { s with pending := op :: rest, reply := t.reply })

/-- R89: the pseudo-instructions. LOADIN of a list that fits leaves it as the input window, every
byte of IBUF past it as before; SETVAL and CLREACC are single writes. -/
def Obligations.PseudoInstructionsExpandExactly : Prop :=
  (∀ (s : State) (bs : List Byte) (rest : List HostOp), StateInv s →
    AsmLine.wellFormed s.cap.toNat (.loadin bs) = true →
    s.pending = expand (.loadin bs) ++ rest →
    ∃ t, Host.Core.run Sys2Proof.core (bs.length + 1) s = .next t ∧
      t = { s with ibuf := t.ibuf, inLen := t.inLen, pending := rest, reply := none } ∧
      t.inLen.toNat = bs.length ∧ window t = bs ∧
      ∀ a, bs.length ≤ a → Memory.read t.ibuf a = Memory.read s.ibuf a) ∧
    (∀ bs : List Byte, expand (.loadin bs) =
      bs.mapIdx (fun i b => HostOp.wrb i b) ++ [.wr 5#32 (BitVec.ofNat 32 bs.length)]) ∧
    (∀ v : Word, expand (.setval v) = [.wr 3#32 v]) ∧
    expand .clreacc = [.wr 1#32 0x100#32] ∧ expand (.loadin []) = [.wr 5#32 0#32]

/-- R203: after reset, CRC_UPDATE over a window leaves the CRC that CRC_GEN leaves, CRC_OUT gives
INIT's bytes, MPI_ENCODE gives the zero MPInt's wire form, MPI_WLEN gives 2, and every command over
the empty window is defined. -/
def Obligations.ResetValuesHaveTheirConsequences : Prop :=
  ∀ n : Word, capacityWellFormed n.toNat = true →
    let s := State.resetAt n
    (∀ (bs : List Byte) (u : State), Supplied s bs u → ∃ t g,
      exec .crcUpdate u = .next t ∧ exec .crcGen u = .next g ∧ t.crc = g.crc) ∧
    (∃ t, exec .crcOut s = .next t ∧ output t = [0xB7#8, 0x04#8, 0xCE#8]) ∧
    (∃ t, exec .mpiEncode s = .next t ∧ output t = [0x00#8, 0x00#8]) ∧
    (∃ t, exec .mpiWlen s = .next t ∧ t.val = 2#32) ∧
    ∀ (i : Instr) (u : State), Supplied s [] u → ∃ t, exec i u = .next t

/-! ### Decoding and the step -/

/-- Words of the opcode map (R84) of each family, written out, decode to their commands, and every
command's word decodes to it. -/
def Obligations.WordsOfTheOpcodeMapDecode : Prop :=
  decode 0x00000001#32 = .ok .crcInit ∧ decode 0x00000003#32 = .ok .crcGen ∧
    decode 0x00000020#32 = .ok .bitlen ∧ decode 0x00000022#32 = .ok .mpiDecode ∧
    decode 0x00000014#32 = .ok .beEnc4 ∧ decode 0x0000001A#32 = .ok .beDec2 ∧
    ∀ i : Instr, i.wellFormed = true → decode (encode i) = .ok i

/-- R84: over all 2^32 words, a word decodes to a command exactly when the opcode map, written out
here, pairs them; and that is exactly when the encoder gives that word. -/
def Obligations.AWordDecodesExactlyWhenTheMapNamesIt : Prop :=
  ∀ (w : Word) (i : Instr),
    (decode w = .ok i ↔
      (i, w) ∈ [(Instr.crcInit, 0x00000001#32), (Instr.crcUpdate, 0x00000002#32),
        (Instr.crcGen, 0x00000003#32), (Instr.crcOut, 0x00000004#32),
        (Instr.bitlen, 0x00000020#32), (Instr.mpiLoad, 0x00000021#32),
        (Instr.mpiDecode, 0x00000022#32), (Instr.mpiEncode, 0x00000023#32),
        (Instr.mpiWlen, 0x00000024#32), (Instr.mpiRaw, 0x00000025#32),
        (Instr.beEnc2, 0x00000012#32), (Instr.beEnc3, 0x00000013#32),
        (Instr.beEnc4, 0x00000014#32), (Instr.beDec2, 0x0000001A#32),
        (Instr.beDec3, 0x0000001B#32), (Instr.beDec4, 0x0000001C#32)]) ∧
      (decode w = .ok i ↔ w = encode i)

/-- R85: the words outside the map: each class that the rule lists is outside it, the sixteen words
are distinct, and every word outside it raises ILLEGAL with itself and changes only the report. -/
def Obligations.EveryOtherWordIsIllegal : Prop :=
  (∀ i j : Instr, encode i = encode j → i = j) ∧
    (∀ w : Word,
      w.toNat / 256 ≠ 0 ∨ w.toNat = 0 ∨ (0x05 ≤ w.toNat ∧ w.toNat ≤ 0x0F) ∨ w.toNat = 0x10 ∨
        w.toNat = 0x11 ∨ (0x15 ≤ w.toNat ∧ w.toNat ≤ 0x19) ∨
        (0x1D ≤ w.toNat ∧ w.toNat ≤ 0x1F) ∨ (0x26 ≤ w.toNat ∧ w.toNat ≤ 0x2F) ∨
        (0x30 ≤ w.toNat ∧ w.toNat ≤ 0xFF) ↔ ∀ i : Instr, w ≠ encode i) ∧
    ∀ (s : State) (w : Word) (rest : List HostOp), s.pending = .wr 0#32 w :: rest →
      (∀ i : Instr, w ≠ encode i) →
      ∃ t, step s = .next t ∧ Raised .illegal w { s with pending := rest, reply := none } t

/-- A step runs the decoded command: when the host's next operation writes a command word to CMD, the
step is `exec` of the command it decodes to, with the operation taken off the host's list. -/
def Obligations.AStepRunsTheDecodedCommand : Prop :=
  ∀ (s : State) (w : Word) (i : Instr) (rest : List HostOp),
    s.pending = .wr 0#32 w :: rest → decode w = .ok i →
    step s = exec i { s with pending := rest, reply := none }

/-- R18, R39 and R70: a step takes the oldest pending operation and no other; with none issued the
state does not change. -/
def Obligations.AStepTakesTheOldestOperation : Prop :=
  (∀ s : State, s.pending = [] → step s = .next s) ∧
    ∀ s t : State, step s = .next t → t.pending = s.pending.tail
end

