-- ==== Sys2Proof/Laws/Codec.lean ====
section
/-! SUPPORT. The small lemmas of the byte-list helpers (spec 00_scope.md R14). -/

namespace Sys2Proof.Machine

@[simp] theorem length_be (n v : Nat) : (be n v).length = n := by
  induction n with
  | zero => rfl
  | succ n ih => simp [be, ih]

/-- Byte i of `BE(n, v)` is the shift by `8*(n-1-i)`, truncated to a byte. -/
theorem getElem?_be (n v i : Nat) :
    (be n v)[i]? = if i < n then some (BitVec.ofNat 8 (v >>> (8 * (n - 1 - i)))) else none := by
  induction n generalizing i with
  | zero => simp [be]
  | succ n ih =>
    cases i with
    | zero => simp [be]
    | succ i =>
      have : n + 1 - 1 - (i + 1) = n - 1 - i := by omega
      simp only [be, List.getElem?_cons_succ, ih, this]
      simp

@[simp] theorem beval_nil : beval [] = 0 := rfl

theorem beval_cons (b : Byte) (s : List Byte) :
    beval (b :: s) = 256 ^ s.length * b.toNat + beval s := rfl

@[simp] theorem stripLZ_nil : stripLZ [] = [] := rfl

@[simp] theorem stripLZ_zero_cons (s : List Byte) : stripLZ (0#8 :: s) = stripLZ s := rfl

theorem stripLZ_cons_of_ne {b : Byte} (h : b ≠ 0#8) (s : List Byte) : stripLZ (b :: s) = b :: s := by
  simp [stripLZ, h]

theorem length_stripLZ_le (s : List Byte) : (stripLZ s).length ≤ s.length := by
  induction s with
  | nil => simp
  | cons b s ih =>
    by_cases h : b = 0#8
    · simp only [h, stripLZ_zero_cons, List.length_cons]
      omega
    · simp [stripLZ_cons_of_ne h]

theorem blen8_le (b : Byte) : blen8 b ≤ 8 := by
  have h : Nat.log2 b.toNat < 8 := by
    by_cases hb : b.toNat = 0
    · simp [hb]
    · exact (Nat.log2_lt hb).2 b.isLt
  unfold blen8
  omega

theorem bitLengthOf_nil : bitLengthOf [] = 0 := rfl

end Sys2Proof.Machine
end

