-- ==== Sys2Proof/Laws/Memory.lean ====
section
/-! SUPPORT. What the buffer operations do: read after write, MemRead after MemWrite, and that every write keeps the canonical form and the capacity. -/

namespace Sys2Proof.Machine

/-- A canonical buffer holds 0 below its first listed index. -/
theorem Memory.read_below {lo a : Nat} {m : Memory} (h : Memory.wfFrom lo m) (ha : a < lo) :
    Memory.read m a = 0#8 := by
  induction m generalizing lo with
  | nil => rfl
  | cons c m ih =>
    obtain ⟨i, b⟩ := c
    simp only [Memory.wfFrom, Bool.and_eq_true, decide_eq_true_eq] at h
    have hne : i ≠ a := by omega
    simp only [Memory.read, if_neg hne]
    exact ih h.2 (by omega)

theorem Memory.wfFrom_weaken {lo lo' : Nat} {m : Memory} (h : Memory.wfFrom lo m) (hl : lo' ≤ lo) :
    Memory.wfFrom lo' m := by
  cases m with
  | nil => rfl
  | cons c m =>
    simp only [Memory.wfFrom, Bool.and_eq_true, decide_eq_true_eq] at h ⊢
    exact ⟨⟨by omega, h.1.2⟩, h.2⟩

/-- Read after write, in a canonical buffer. -/
theorem Memory.read_writeFrom {lo : Nat} {m : Memory} (h : Memory.wfFrom lo m) (a : Nat) (b : Byte)
    (x : Nat) : Memory.read (Memory.write m a b) x = if x = a then b else Memory.read m x := by
  induction m generalizing lo with
  | nil =>
    simp only [Memory.write]
    split <;> rename_i hb <;> simp only [Memory.read]
    · split <;> simp_all
    · simp only [eq_comm (a := a)]
  | cons c m ih =>
    obtain ⟨i, e⟩ := c
    have hc := h
    simp only [Memory.wfFrom, Bool.and_eq_true, decide_eq_true_eq] at h
    have low : a < i → Memory.read ((i, e) :: m) a = 0#8 := fun hai =>
      Memory.read_below (lo := i) (by simp [Memory.wfFrom, h.1.2, h.2]) hai
    have tail : Memory.read m i = 0#8 := Memory.read_below h.2 (by omega)
    simp only [Memory.write]
    by_cases hai : a < i
    · simp only [if_pos hai]
      by_cases hb : b = 0#8
      · simp only [if_pos hb]
        by_cases hx : x = a
        · rw [if_pos hx, hx, hb, low hai]
        · rw [if_neg hx]
      · simp only [if_neg hb, Memory.read, eq_comm (a := a)]
    · simp only [if_neg hai]
      by_cases he : a = i
      · subst he
        simp only [if_pos]
        by_cases hb : b = 0#8
        · simp only [if_pos hb, Memory.read]
          by_cases hx : x = a
          · rw [if_pos hx, hx, hb, tail]
          · rw [if_neg hx, if_neg (fun h => hx h.symm)]
        · simp only [if_neg hb, Memory.read, eq_comm (a := a)]
          split <;> rfl
      · simp only [if_neg he, Memory.read]
        by_cases hx : i = x
        · subst hx
          rw [if_pos rfl, if_neg (fun h => he h.symm), if_pos rfl]
        · rw [if_neg hx, if_neg hx, ih h.2]

/-- Every write keeps the canonical form. -/
theorem Memory.wfFrom_write {lo : Nat} {m : Memory} (h : Memory.wfFrom lo m) {a : Nat} (ha : lo ≤ a)
    (b : Byte) : Memory.wfFrom lo (Memory.write m a b) := by
  induction m generalizing lo with
  | nil =>
    simp only [Memory.write]
    split <;> simp_all [Memory.wfFrom]
  | cons c m ih =>
    obtain ⟨i, e⟩ := c
    simp only [Memory.wfFrom, Bool.and_eq_true, decide_eq_true_eq] at h
    simp only [Memory.write]
    by_cases hai : a < i
    · simp only [if_pos hai]
      split
      · simp [Memory.wfFrom, h]
      · simp only [Memory.wfFrom, Bool.and_eq_true, decide_eq_true_eq]
        exact ⟨⟨ha, by assumption⟩, ⟨by omega, h.1.2⟩, h.2⟩
    · simp only [if_neg hai]
      by_cases he : a = i
      · subst he
        simp only [if_pos]
        split
        · exact Memory.wfFrom_weaken h.2 (by omega)
        · simp only [Memory.wfFrom, Bool.and_eq_true, decide_eq_true_eq]
          exact ⟨⟨ha, by assumption⟩, h.2⟩
      · simp only [if_neg he, Memory.wfFrom, Bool.and_eq_true, decide_eq_true_eq]
        exact ⟨h.1, ih h.2 (by omega)⟩

@[simp] theorem Memory.read_nil (a : Nat) : Memory.read [] a = 0#8 := rfl

@[simp] theorem Memory.wf_nil : Memory.wf [] := rfl

@[simp] theorem Memory.within_nil (cap : Nat) : Memory.within cap [] := rfl

theorem Memory.read_write {m : Memory} (h : Memory.wf m) (a : Nat) (b : Byte) (x : Nat) :
    Memory.read (Memory.write m a b) x = if x = a then b else Memory.read m x :=
  Memory.read_writeFrom h a b x

theorem Memory.wf_write {m : Memory} (h : Memory.wf m) (a : Nat) (b : Byte) :
    Memory.wf (Memory.write m a b) :=
  Memory.wfFrom_write h (Nat.zero_le a) b

/-- A write below the capacity stays within it. -/
theorem Memory.within_write {cap : Nat} {m : Memory} (h : Memory.within cap m) {a : Nat}
    (ha : a < cap) (b : Byte) : Memory.within cap (Memory.write m a b) := by
  induction m with
  | nil =>
    simp only [Memory.write]
    split <;> simp_all [Memory.within]
  | cons c m ih =>
    obtain ⟨i, e⟩ := c
    simp only [Memory.within, List.all_cons, Bool.and_eq_true, decide_eq_true_eq] at h ih
    simp only [Memory.write]
    repeat' split
    all_goals simp only [Memory.within, List.all_cons, Bool.and_eq_true, decide_eq_true_eq]
    all_goals first
      | exact h
      | exact h.2
      | exact ⟨ha, h⟩
      | exact ⟨ha, h.2⟩
      | exact ⟨h.1, ih h.2⟩

theorem Memory.wf_writeBytes {m : Memory} (h : Memory.wf m) (a : Nat) (bs : List Byte) :
    Memory.wf (Memory.writeBytes m a bs) := by
  induction bs generalizing m a with
  | nil => exact h
  | cons b bs ih => exact ih (Memory.wf_write h a b) (a + 1)

theorem Memory.within_writeBytes {cap : Nat} {m : Memory} (h : Memory.within cap m) {a : Nat}
    {bs : List Byte} (ha : a + bs.length ≤ cap) : Memory.within cap (Memory.writeBytes m a bs) := by
  induction bs generalizing m a with
  | nil => exact h
  | cons b bs ih =>
    simp only [List.length_cons] at ha
    exact ih (Memory.within_write h (by omega) b) (by omega)

/-- MemWrite (R12): the bytes at `a + i` are those written, every other byte is unchanged. -/
theorem Memory.read_writeBytes {m : Memory} (h : Memory.wf m) (a : Nat) (bs : List Byte) (x : Nat) :
    Memory.read (Memory.writeBytes m a bs) x =
      if a ≤ x ∧ x < a + bs.length then bs.getD (x - a) 0#8 else Memory.read m x := by
  induction bs generalizing m a with
  | nil => simp [Memory.writeBytes]
  | cons b bs ih =>
    rw [Memory.writeBytes, ih (Memory.wf_write h a b), Memory.read_write h]
    simp only [List.length_cons]
    by_cases hx : x = a
    · subst hx
      simp
    · by_cases hin : a ≤ x ∧ x < a + (bs.length + 1)
      · obtain ⟨k, rfl⟩ : ∃ k, x = a + 1 + k := ⟨x - (a + 1), by omega⟩
        rw [if_pos (by omega), if_pos hin]
        have : a + 1 + k - a = k + 1 := by omega
        simp [this]
      · rw [if_neg (by omega), if_neg hx, if_neg hin]

theorem Memory.readBytes_succ (m : Memory) (a n : Nat) :
    Memory.readBytes m a (n + 1) = Memory.read m a :: Memory.readBytes m (a + 1) n := rfl

@[simp] theorem Memory.length_readBytes (m : Memory) (a n : Nat) :
    (Memory.readBytes m a n).length = n := by
  induction n generalizing a with
  | zero => rfl
  | succ n ih => simp [Memory.readBytes, ih]

/-- MemRead (R12), byte by byte. -/
theorem Memory.getElem?_readBytes (m : Memory) (a n i : Nat) :
    (Memory.readBytes m a n)[i]? = if i < n then some (Memory.read m (a + i)) else none := by
  induction n generalizing a i with
  | zero => simp [Memory.readBytes]
  | succ n ih =>
    cases i with
    | zero => simp [Memory.readBytes]
    | succ i =>
      simp only [Memory.readBytes, List.getElem?_cons_succ, ih]
      have : a + 1 + i = a + (i + 1) := by omega
      simp [this]

theorem Memory.readBytes_congr {m m' : Memory} {a n : Nat}
    (h : ∀ i < n, Memory.read m (a + i) = Memory.read m' (a + i)) :
    Memory.readBytes m a n = Memory.readBytes m' a n := by
  apply List.ext_getElem?
  intro i
  simp only [Memory.getElem?_readBytes]
  split
  · rw [h i (by assumption)]
  · rfl

theorem Memory.readBytes_add (m : Memory) (a n k : Nat) :
    Memory.readBytes m a (n + k) = Memory.readBytes m a n ++ Memory.readBytes m (a + n) k := by
  induction n generalizing a with
  | zero => simp [Memory.readBytes]
  | succ n ih =>
    have h1 : n + 1 + k = (n + k) + 1 := by omega
    have h2 : a + 1 + n = a + (n + 1) := by omega
    simp [h1, Memory.readBytes, ih, h2]

/-- MemRead of what MemWrite wrote. -/
theorem Memory.readBytes_writeBytes {m : Memory} (h : Memory.wf m) (a : Nat) (bs : List Byte) :
    Memory.readBytes (Memory.writeBytes m a bs) a bs.length = bs := by
  apply List.ext_getElem?
  intro i
  rw [Memory.getElem?_readBytes]
  split <;> rename_i hi
  · rw [Memory.read_writeBytes h, if_pos (by omega)]
    have : a + i - a = i := by omega
    simp [this, List.getD, hi]
  · simp; omega

end Sys2Proof.Machine
end

