-- ==== Sys2Proof/Laws/State.lean ====
section
/-! SUPPORT. One lemma per field per state update, so that no proof unfolds a record update. -/

namespace Sys2Proof.Machine

section okFields

variable (s : State)

@[simp] theorem ok_cmd : (ok s).cmd = s.cmd := rfl
@[simp] theorem ok_status : (ok s).status = s.status &&& ~~~errMask := rfl
@[simp] theorem ok_errArg : (ok s).errArg = 0#32 := rfl
@[simp] theorem ok_val : (ok s).val = s.val := rfl
@[simp] theorem ok_crc : (ok s).crc = s.crc := rfl
@[simp] theorem ok_inLen : (ok s).inLen = s.inLen := rfl
@[simp] theorem ok_outLen : (ok s).outLen = s.outLen := rfl
@[simp] theorem ok_mpiLen : (ok s).mpiLen = s.mpiLen := rfl
@[simp] theorem ok_consumed : (ok s).consumed = s.consumed := rfl
@[simp] theorem ok_cap : (ok s).cap = s.cap := rfl
@[simp] theorem ok_ibuf : (ok s).ibuf = s.ibuf := rfl
@[simp] theorem ok_mbuf : (ok s).mbuf = s.mbuf := rfl
@[simp] theorem ok_obuf : (ok s).obuf = s.obuf := rfl
@[simp] theorem ok_pending : (ok s).pending = s.pending := rfl
@[simp] theorem ok_reply : (ok s).reply = s.reply := rfl

end okFields

section raiseFields

variable (k : ErrKind) (arg : Word) (s : State)

@[simp] theorem raise_cmd : (raise k arg s).cmd = s.cmd := rfl
@[simp] theorem raise_status : (raise k arg s).status = (s.status &&& ~~~errMask) ||| errCode k ||| eaccMask := rfl
@[simp] theorem raise_errArg : (raise k arg s).errArg = arg := rfl
@[simp] theorem raise_val : (raise k arg s).val = s.val := rfl
@[simp] theorem raise_crc : (raise k arg s).crc = s.crc := rfl
@[simp] theorem raise_inLen : (raise k arg s).inLen = s.inLen := rfl
@[simp] theorem raise_outLen : (raise k arg s).outLen = s.outLen := rfl
@[simp] theorem raise_mpiLen : (raise k arg s).mpiLen = s.mpiLen := rfl
@[simp] theorem raise_consumed : (raise k arg s).consumed = s.consumed := rfl
@[simp] theorem raise_cap : (raise k arg s).cap = s.cap := rfl
@[simp] theorem raise_ibuf : (raise k arg s).ibuf = s.ibuf := rfl
@[simp] theorem raise_mbuf : (raise k arg s).mbuf = s.mbuf := rfl
@[simp] theorem raise_obuf : (raise k arg s).obuf = s.obuf := rfl
@[simp] theorem raise_pending : (raise k arg s).pending = s.pending := rfl
@[simp] theorem raise_reply : (raise k arg s).reply = s.reply := rfl

end raiseFields

section clearEaccFields

variable (s : State)

@[simp] theorem clearEacc_cmd : (clearEacc s).cmd = s.cmd := rfl
@[simp] theorem clearEacc_status : (clearEacc s).status = s.status &&& ~~~eaccMask := rfl
@[simp] theorem clearEacc_errArg : (clearEacc s).errArg = s.errArg := rfl
@[simp] theorem clearEacc_val : (clearEacc s).val = s.val := rfl
@[simp] theorem clearEacc_crc : (clearEacc s).crc = s.crc := rfl
@[simp] theorem clearEacc_inLen : (clearEacc s).inLen = s.inLen := rfl
@[simp] theorem clearEacc_outLen : (clearEacc s).outLen = s.outLen := rfl
@[simp] theorem clearEacc_mpiLen : (clearEacc s).mpiLen = s.mpiLen := rfl
@[simp] theorem clearEacc_consumed : (clearEacc s).consumed = s.consumed := rfl
@[simp] theorem clearEacc_cap : (clearEacc s).cap = s.cap := rfl
@[simp] theorem clearEacc_ibuf : (clearEacc s).ibuf = s.ibuf := rfl
@[simp] theorem clearEacc_mbuf : (clearEacc s).mbuf = s.mbuf := rfl
@[simp] theorem clearEacc_obuf : (clearEacc s).obuf = s.obuf := rfl
@[simp] theorem clearEacc_pending : (clearEacc s).pending = s.pending := rfl
@[simp] theorem clearEacc_reply : (clearEacc s).reply = s.reply := rfl

end clearEaccFields

section putOutputFields

variable (bs : List Byte) (s : State)

@[simp] theorem putOutput_cmd : (putOutput bs s).cmd = s.cmd := rfl
@[simp] theorem putOutput_status : (putOutput bs s).status = s.status := rfl
@[simp] theorem putOutput_errArg : (putOutput bs s).errArg = s.errArg := rfl
@[simp] theorem putOutput_val : (putOutput bs s).val = s.val := rfl
@[simp] theorem putOutput_crc : (putOutput bs s).crc = s.crc := rfl
@[simp] theorem putOutput_inLen : (putOutput bs s).inLen = s.inLen := rfl
@[simp] theorem putOutput_outLen : (putOutput bs s).outLen = BitVec.ofNat 32 bs.length := rfl
@[simp] theorem putOutput_mpiLen : (putOutput bs s).mpiLen = s.mpiLen := rfl
@[simp] theorem putOutput_consumed : (putOutput bs s).consumed = s.consumed := rfl
@[simp] theorem putOutput_cap : (putOutput bs s).cap = s.cap := rfl
@[simp] theorem putOutput_ibuf : (putOutput bs s).ibuf = s.ibuf := rfl
@[simp] theorem putOutput_mbuf : (putOutput bs s).mbuf = s.mbuf := rfl
@[simp] theorem putOutput_obuf : (putOutput bs s).obuf = Memory.writeBytes s.obuf 0 bs := rfl
@[simp] theorem putOutput_pending : (putOutput bs s).pending = s.pending := rfl
@[simp] theorem putOutput_reply : (putOutput bs s).reply = s.reply := rfl

end putOutputFields

section putMpintFields

variable (bs : List Byte) (s : State)

@[simp] theorem putMpint_cmd : (putMpint bs s).cmd = s.cmd := rfl
@[simp] theorem putMpint_status : (putMpint bs s).status = s.status := rfl
@[simp] theorem putMpint_errArg : (putMpint bs s).errArg = s.errArg := rfl
@[simp] theorem putMpint_val : (putMpint bs s).val = s.val := rfl
@[simp] theorem putMpint_crc : (putMpint bs s).crc = s.crc := rfl
@[simp] theorem putMpint_inLen : (putMpint bs s).inLen = s.inLen := rfl
@[simp] theorem putMpint_outLen : (putMpint bs s).outLen = s.outLen := rfl
@[simp] theorem putMpint_mpiLen : (putMpint bs s).mpiLen = BitVec.ofNat 32 bs.length := rfl
@[simp] theorem putMpint_consumed : (putMpint bs s).consumed = s.consumed := rfl
@[simp] theorem putMpint_cap : (putMpint bs s).cap = s.cap := rfl
@[simp] theorem putMpint_ibuf : (putMpint bs s).ibuf = s.ibuf := rfl
@[simp] theorem putMpint_mbuf : (putMpint bs s).mbuf = Memory.writeBytes s.mbuf 0 bs := rfl
@[simp] theorem putMpint_obuf : (putMpint bs s).obuf = s.obuf := rfl
@[simp] theorem putMpint_pending : (putMpint bs s).pending = s.pending := rfl
@[simp] theorem putMpint_reply : (putMpint bs s).reply = s.reply := rfl

end putMpintFields

section putValFields

variable (v : Nat) (s : State)

@[simp] theorem putVal_cmd : (putVal v s).cmd = s.cmd := rfl
@[simp] theorem putVal_status : (putVal v s).status = s.status := rfl
@[simp] theorem putVal_errArg : (putVal v s).errArg = s.errArg := rfl
@[simp] theorem putVal_val : (putVal v s).val = BitVec.ofNat 32 v := rfl
@[simp] theorem putVal_crc : (putVal v s).crc = s.crc := rfl
@[simp] theorem putVal_inLen : (putVal v s).inLen = s.inLen := rfl
@[simp] theorem putVal_outLen : (putVal v s).outLen = s.outLen := rfl
@[simp] theorem putVal_mpiLen : (putVal v s).mpiLen = s.mpiLen := rfl
@[simp] theorem putVal_consumed : (putVal v s).consumed = s.consumed := rfl
@[simp] theorem putVal_cap : (putVal v s).cap = s.cap := rfl
@[simp] theorem putVal_ibuf : (putVal v s).ibuf = s.ibuf := rfl
@[simp] theorem putVal_mbuf : (putVal v s).mbuf = s.mbuf := rfl
@[simp] theorem putVal_obuf : (putVal v s).obuf = s.obuf := rfl
@[simp] theorem putVal_pending : (putVal v s).pending = s.pending := rfl
@[simp] theorem putVal_reply : (putVal v s).reply = s.reply := rfl

end putValFields

section putCrcFields

variable (c : Word) (s : State)

@[simp] theorem putCrc_cmd : (putCrc c s).cmd = s.cmd := rfl
@[simp] theorem putCrc_status : (putCrc c s).status = s.status := rfl
@[simp] theorem putCrc_errArg : (putCrc c s).errArg = s.errArg := rfl
@[simp] theorem putCrc_val : (putCrc c s).val = s.val := rfl
@[simp] theorem putCrc_crc : (putCrc c s).crc = c := rfl
@[simp] theorem putCrc_inLen : (putCrc c s).inLen = s.inLen := rfl
@[simp] theorem putCrc_outLen : (putCrc c s).outLen = s.outLen := rfl
@[simp] theorem putCrc_mpiLen : (putCrc c s).mpiLen = s.mpiLen := rfl
@[simp] theorem putCrc_consumed : (putCrc c s).consumed = s.consumed := rfl
@[simp] theorem putCrc_cap : (putCrc c s).cap = s.cap := rfl
@[simp] theorem putCrc_ibuf : (putCrc c s).ibuf = s.ibuf := rfl
@[simp] theorem putCrc_mbuf : (putCrc c s).mbuf = s.mbuf := rfl
@[simp] theorem putCrc_obuf : (putCrc c s).obuf = s.obuf := rfl
@[simp] theorem putCrc_pending : (putCrc c s).pending = s.pending := rfl
@[simp] theorem putCrc_reply : (putCrc c s).reply = s.reply := rfl

end putCrcFields

section putConsumedFields

variable (n : Nat) (s : State)

@[simp] theorem putConsumed_cmd : (putConsumed n s).cmd = s.cmd := rfl
@[simp] theorem putConsumed_status : (putConsumed n s).status = s.status := rfl
@[simp] theorem putConsumed_errArg : (putConsumed n s).errArg = s.errArg := rfl
@[simp] theorem putConsumed_val : (putConsumed n s).val = s.val := rfl
@[simp] theorem putConsumed_crc : (putConsumed n s).crc = s.crc := rfl
@[simp] theorem putConsumed_inLen : (putConsumed n s).inLen = s.inLen := rfl
@[simp] theorem putConsumed_outLen : (putConsumed n s).outLen = s.outLen := rfl
@[simp] theorem putConsumed_mpiLen : (putConsumed n s).mpiLen = s.mpiLen := rfl
@[simp] theorem putConsumed_consumed : (putConsumed n s).consumed = BitVec.ofNat 32 n := rfl
@[simp] theorem putConsumed_cap : (putConsumed n s).cap = s.cap := rfl
@[simp] theorem putConsumed_ibuf : (putConsumed n s).ibuf = s.ibuf := rfl
@[simp] theorem putConsumed_mbuf : (putConsumed n s).mbuf = s.mbuf := rfl
@[simp] theorem putConsumed_obuf : (putConsumed n s).obuf = s.obuf := rfl
@[simp] theorem putConsumed_pending : (putConsumed n s).pending = s.pending := rfl
@[simp] theorem putConsumed_reply : (putConsumed n s).reply = s.reply := rfl

end putConsumedFields

section operandsOfUpdates

variable (s : State)

@[simp] theorem window_ok : window (ok s) = window s := rfl
@[simp] theorem mpint_ok : mpint (ok s) = mpint s := rfl
@[simp] theorem output_ok : output (ok s) = output s := rfl
@[simp] theorem window_raise (k : ErrKind) (arg : Word) : window (raise k arg s) = window s := rfl
@[simp] theorem mpint_raise (k : ErrKind) (arg : Word) : mpint (raise k arg s) = mpint s := rfl
@[simp] theorem output_raise (k : ErrKind) (arg : Word) : output (raise k arg s) = output s := rfl
@[simp] theorem window_putOutput (bs : List Byte) : window (putOutput bs s) = window s := rfl
@[simp] theorem mpint_putOutput (bs : List Byte) : mpint (putOutput bs s) = mpint s := rfl
@[simp] theorem window_putMpint (bs : List Byte) : window (putMpint bs s) = window s := rfl
@[simp] theorem output_putMpint (bs : List Byte) : output (putMpint bs s) = output s := rfl
@[simp] theorem window_putVal (v : Nat) : window (putVal v s) = window s := rfl
@[simp] theorem mpint_putVal (v : Nat) : mpint (putVal v s) = mpint s := rfl
@[simp] theorem output_putVal (v : Nat) : output (putVal v s) = output s := rfl
@[simp] theorem window_putCrc (c : Word) : window (putCrc c s) = window s := rfl
@[simp] theorem mpint_putCrc (c : Word) : mpint (putCrc c s) = mpint s := rfl
@[simp] theorem output_putCrc (c : Word) : output (putCrc c s) = output s := rfl
@[simp] theorem window_putConsumed (n : Nat) : window (putConsumed n s) = window s := rfl
@[simp] theorem mpint_putConsumed (n : Nat) : mpint (putConsumed n s) = mpint s := rfl
@[simp] theorem output_putConsumed (n : Nat) : output (putConsumed n s) = output s := rfl

end operandsOfUpdates

end Sys2Proof.Machine
end

