-- ==== Sys2Proof/Laws/Ops.lean ====
section
/-! SUPPORT. What the two status updates and the W1C write do to STATUS, bit by bit and field by field. -/

namespace Sys2Proof.Machine

theorem getLsbD_errMask {i : Nat} (h : i < 32) : errMask.getLsbD i = decide (i < 4) := by
  revert i
  decide

theorem getLsbD_eaccMask {i : Nat} (h : i < 32) : eaccMask.getLsbD i = decide (i = 8) := by
  revert i
  decide

/-- Codes take only the bits of STATUS.ERR. -/
theorem getLsbD_errCode_high {k : ErrKind} {i : Nat} (h : i < 32) (hi : 4 ≤ i) :
    (errCode k).getLsbD i = false := by
  revert i
  cases k <;> decide

/-- `ok` of a state whose STATUS is still that of s is a success result of s (R172). -/
theorem succeeded_ok {s u : State} (h : u.status = s.status) : Succeeded s (ok u) := by
  refine ⟨rfl, fun i hi => ?_⟩
  rw [ok_status, h, BitVec.getLsbD_and, BitVec.getLsbD_not, getLsbD_errMask hi]
  by_cases h4 : i < 4 <;> simp [h4, hi]

/-- `raise` is the error result (R173). -/
theorem raised_raise (k : ErrKind) (arg : Word) (s : State) : Raised k arg s (raise k arg s) := by
  refine ⟨rfl, fun i hi => ?_⟩
  rw [raise_status, BitVec.getLsbD_or, BitVec.getLsbD_or, BitVec.getLsbD_and, BitVec.getLsbD_not,
    getLsbD_errMask hi, getLsbD_eaccMask hi]
  by_cases h4 : i < 4
  · have h8 : i ≠ 8 := by omega
    simp [h4, h8]
  · by_cases h8 : i = 8
    · simp [h8]
    · rw [getLsbD_errCode_high hi (by omega)]
      simp [h4, h8, hi]

theorem statusErr_ok (s : State) : statusErr (ok s) = 0 := by
  have : s.status &&& ~~~errMask &&& errMask = 0#32 := by
    rw [BitVec.and_assoc, BitVec.and_comm (~~~errMask)]
    simp
  simp [statusErr, this]

theorem statusErr_raise (k : ErrKind) (arg : Word) (s : State) :
    statusErr (raise k arg s) = (errCode k).toNat := by
  have h : ((s.status &&& ~~~errMask) ||| errCode k ||| eaccMask) &&& errMask = errCode k := by
    apply BitVec.eq_of_getLsbD_eq
    intro i hi
    simp only [BitVec.getLsbD_and, BitVec.getLsbD_or, BitVec.getLsbD_not, getLsbD_errMask hi,
      getLsbD_eaccMask hi]
    by_cases h4 : i < 4
    · have h8 : i ≠ 8 := by omega
      simp [h4, h8]
    · simp [h4, getLsbD_errCode_high hi (by omega)]
  simp [statusErr, h]

@[simp] theorem statusEacc_ok (s : State) : statusEacc (ok s) = statusEacc s := by
  have h : errMask.getLsbD 8 = false := rfl
  rw [statusEacc, ok_status, BitVec.getLsbD_and, BitVec.getLsbD_not, h]
  simp [statusEacc]

@[simp] theorem statusEacc_raise (k : ErrKind) (arg : Word) (s : State) :
    statusEacc (raise k arg s) = true := by
  have h : eaccMask.getLsbD 8 = true := rfl
  rw [statusEacc, raise_status, BitVec.getLsbD_or, h, Bool.or_true]

@[simp] theorem statusEacc_clearEacc (s : State) : statusEacc (clearEacc s) = false := by
  have h : eaccMask.getLsbD 8 = true := rfl
  rw [statusEacc, clearEacc_status, BitVec.getLsbD_and, BitVec.getLsbD_not, h]
  simp

@[simp] theorem statusErr_clearEacc (s : State) : statusErr (clearEacc s) = statusErr s := by
  have h : s.status &&& ~~~eaccMask &&& errMask = s.status &&& errMask := by
    rw [BitVec.and_assoc]
    rfl
  simp [statusErr, h]

/-- The status updates leave the reserved bits of STATUS at 0 (R22). -/
theorem reservedZero_ok {s : State} (h : s.status &&& ~~~(errMask ||| eaccMask) = 0#32) :
    (ok s).status &&& ~~~(errMask ||| eaccMask) = 0#32 := by
  rw [ok_status, BitVec.and_assoc, BitVec.and_comm (~~~errMask), ← BitVec.and_assoc, h]
  simp

theorem reservedZero_clearEacc {s : State} (h : s.status &&& ~~~(errMask ||| eaccMask) = 0#32) :
    (clearEacc s).status &&& ~~~(errMask ||| eaccMask) = 0#32 := by
  rw [clearEacc_status, BitVec.and_assoc, BitVec.and_comm (~~~eaccMask), ← BitVec.and_assoc, h]
  simp

theorem reservedZero_raise {s : State} (k : ErrKind) (arg : Word)
    (h : s.status &&& ~~~(errMask ||| eaccMask) = 0#32) :
    (raise k arg s).status &&& ~~~(errMask ||| eaccMask) = 0#32 := by
  apply BitVec.eq_of_getLsbD_eq
  intro i hi
  have hs := congrArg (fun w => BitVec.getLsbD w i) h
  simp only [raise_status, BitVec.getLsbD_and, BitVec.getLsbD_or, BitVec.getLsbD_not,
    getLsbD_errMask hi, getLsbD_eaccMask hi, BitVec.getLsbD_zero] at hs ⊢
  by_cases h4 : i < 4
  · simp [h4]
  · by_cases h8 : i = 8
    · simp [h8]
    · rw [getLsbD_errCode_high hi (by omega)]
      simp_all

end Sys2Proof.Machine
end

