-- ==== Sys2Proof/Laws/Exec.lean ====
section
/-! SUPPORT. What a command can do, said once: it raises and changes nothing else, or it writes its result and succeeds (R13, R172, R173). -/

namespace Sys2Proof.Machine

/-- The error a command raises in a state, as the meanings check it. -/
def commandFailure (i : Instr) (s : State) : Option (ErrKind × Word) :=
  match i with
  | .mpiDecode =>
    if s.inLen.toNat < 2 ∨ s.inLen.toNat < 2 + declaredByteLen s then some (.tooShort, s.inLen)
    else none
  | .mpiEncode =>
    if 65535 < bitLengthOf (mpint s) then
      some (.lengthOverflow, BitVec.ofNat 32 (bitLengthOf (mpint s)))
    else none
  | .beDec2 => if s.inLen.toNat < 2 then some (.tooShort, s.inLen) else none
  | .beDec3 => if s.inLen.toNat < 3 then some (.tooShort, s.inLen) else none
  | .beDec4 => if s.inLen.toNat < 4 then some (.tooShort, s.inLen) else none
  | .crcInit | .crcUpdate | .crcGen | .crcOut => none
  | .bitlen | .mpiLoad | .mpiWlen | .mpiRaw => none
  | .beEnc2 | .beEnc3 | .beEnc4 => none

/-- What a command writes where it succeeds, before its status update. -/
def commandEffect (i : Instr) (s : State) : State :=
  match i with
  | .crcInit => putCrc crcInitValue s
  | .crcUpdate => putCrc (crc24Fold s.crc (window s)) s
  | .crcGen =>
    putOutput (be 3 (crc24Fold crcInitValue (window s) &&& 0x00FFFFFF#32).toNat)
      (putCrc (crc24Fold crcInitValue (window s) &&& 0x00FFFFFF#32) s)
  | .crcOut => putOutput (be 3 (s.crc &&& 0x00FFFFFF#32).toNat) s
  | .bitlen => putVal (bitLengthOf (window s)) s
  | .mpiLoad => putMpint (stripLZ (window s)) s
  | .mpiDecode =>
    putConsumed (2 + declaredByteLen s)
      (putMpint (Memory.readBytes s.ibuf 2 (declaredByteLen s)) s)
  | .mpiEncode => putOutput (be 2 (bitLengthOf (mpint s)) ++ mpint s) s
  | .mpiWlen => putVal (2 + ceil8 (bitLengthOf (mpint s))) s
  | .mpiRaw => putOutput (mpint s) s
  | .beEnc2 => putOutput (be 2 s.val.toNat) s
  | .beEnc3 => putOutput (be 3 s.val.toNat) s
  | .beEnc4 => putOutput (be 4 s.val.toNat) s
  | .beDec2 => putVal (beval (Memory.readBytes s.ibuf 0 2)) s
  | .beDec3 => putVal (beval (Memory.readBytes s.ibuf 0 3)) s
  | .beDec4 => putVal (beval (Memory.readBytes s.ibuf 0 4)) s

/-- Every command either raises or writes its result and succeeds. -/
theorem exec_eq (i : Instr) (s : State) :
    exec i s = .next
      (match commandFailure i s with
        | some (k, arg) => raise k arg s
        | none => ok (commandEffect i s)) := by
  cases i
  case mpiDecode =>
    by_cases h : s.inLen.toNat < 2
    · simp [exec, execMpiDecode, commandFailure, h]
    · by_cases h2 : s.inLen.toNat < 2 + declaredByteLen s <;>
        simp [exec, execMpiDecode, commandFailure, commandEffect, h, h2]
  case mpiEncode =>
    by_cases h : 65535 < bitLengthOf (mpint s) <;>
      simp [exec, execMpiEncode, commandFailure, commandEffect, h]
  case beDec2 =>
    by_cases h : s.inLen.toNat < 2 <;> simp [exec, execBeDec2, beDec, commandFailure, commandEffect, h]
  case beDec3 =>
    by_cases h : s.inLen.toNat < 3 <;> simp [exec, execBeDec3, beDec, commandFailure, commandEffect, h]
  case beDec4 =>
    by_cases h : s.inLen.toNat < 4 <;> simp [exec, execBeDec4, beDec, commandFailure, commandEffect, h]
  all_goals rfl

theorem exec_of_failure {i : Instr} {s : State} {k : ErrKind} {arg : Word}
    (h : commandFailure i s = some (k, arg)) : exec i s = .next (raise k arg s) := by
  rw [exec_eq, h]

theorem exec_of_success {i : Instr} {s : State} (h : commandFailure i s = none) :
    exec i s = .next (ok (commandEffect i s)) := by
  rw [exec_eq, h]

/-- The inversion of a command's step. -/
theorem exec_next_cases {i : Instr} {s t : State} (h : exec i s = .next t) :
    (∃ k arg, commandFailure i s = some (k, arg) ∧ t = raise k arg s) ∨
      (commandFailure i s = none ∧ t = ok (commandEffect i s)) := by
  rw [exec_eq] at h
  cases hf : commandFailure i s with
  | none =>
    rw [hf] at h
    exact .inr ⟨rfl, (Host.Outcome.next.inj h).symm⟩
  | some e =>
    rw [hf] at h
    exact .inl ⟨e.1, e.2, rfl, (Host.Outcome.next.inj h).symm⟩

/-- No command's result touches STATUS, ERR_ARG, the window, CMD, CAP or the host's side. -/
theorem commandEffect_frame (i : Instr) (s : State) :
    (commandEffect i s).status = s.status ∧ (commandEffect i s).errArg = s.errArg ∧
      (commandEffect i s).ibuf = s.ibuf ∧ (commandEffect i s).inLen = s.inLen ∧ (commandEffect i s).cmd = s.cmd ∧
      (commandEffect i s).cap = s.cap ∧ (commandEffect i s).pending = s.pending ∧
      (commandEffect i s).reply = s.reply := by
  cases i <;> simp [commandEffect]

end Sys2Proof.Machine
end

