-- ==== Sys2Proof/Laws/Invariant.lean ====
section
/-! SUPPORT. The small facts that a state meeting `StateInv` gives: its capacity, and the sizes of its operands. -/

namespace Sys2Proof.Machine

theorem capacityWellFormed_iff (n : Nat) : capacityWellFormed n = true ↔ 4 ≤ n ∧ n ≤ 2 ^ 28 := by
  unfold capacityWellFormed
  rw [Bool.and_eq_true, decide_eq_true_iff, decide_eq_true_iff]
  rfl

theorem StateInv.four_le_cap {s : State} (h : StateInv s) : 4 ≤ s.cap.toNat :=
  ((capacityWellFormed_iff _).1 h.capacity).1

theorem StateInv.cap_le {s : State} (h : StateInv s) : s.cap.toNat ≤ 2 ^ 28 :=
  ((capacityWellFormed_iff _).1 h.capacity).2

@[simp] theorem length_window (s : State) : (window s).length = s.inLen.toNat := by
  simp [window]

@[simp] theorem length_mpint (s : State) : (mpint s).length = s.mpiLen.toNat := by
  simp [mpint]

@[simp] theorem length_output (s : State) : (output s).length = s.outLen.toNat := by
  simp [output]

/-- A length that a buffer can hold fits a register (R7). -/
theorem toNat_ofNat_of_le {s : State} (h : StateInv s) {n : Nat} (hn : n ≤ 8 * s.cap.toNat) :
    (BitVec.ofNat 32 n).toNat = n := by
  have := h.cap_le
  simp only [BitVec.toNat_ofNat]
  omega

/-- A byte result: the first bytes of OBUF are it, the others read as before (R34). -/
theorem read_putOutput {s : State} (hw : Memory.wf s.obuf = true) (bs : List Byte) (a : Nat) :
    Memory.read (putOutput bs s).obuf a =
      if a < bs.length then bs.getD a 0#8 else Memory.read s.obuf a := by
  simp [Memory.read_writeBytes hw]

/-- A new MPInt: the first bytes of MBUF are it, the others read as before (R33). -/
theorem read_putMpint {s : State} (hw : Memory.wf s.mbuf = true) (bs : List Byte) (a : Nat) :
    Memory.read (putMpint bs s).mbuf a =
      if a < bs.length then bs.getD a 0#8 else Memory.read s.mbuf a := by
  simp [Memory.read_writeBytes hw]

/-- The output after a byte result that fits is that result. -/
theorem output_putOutput {s : State} (hw : Memory.wf s.obuf = true) {bs : List Byte}
    (hl : bs.length < 2 ^ 32) : output (putOutput bs s) = bs := by
  have h : (BitVec.ofNat 32 bs.length).toNat = bs.length := by
    simpa using hl
  rw [output, putOutput_outLen, h, putOutput_obuf]
  exact Memory.readBytes_writeBytes hw 0 bs

/-- The MPInt after storing one that fits is that one. -/
theorem mpint_putMpint {s : State} (hw : Memory.wf s.mbuf = true) {bs : List Byte}
    (hl : bs.length < 2 ^ 32) : mpint (putMpint bs s) = bs := by
  have h : (BitVec.ofNat 32 bs.length).toNat = bs.length := by
    simpa using hl
  rw [mpint, putMpint_mpiLen, h, putMpint_mbuf]
  exact Memory.readBytes_writeBytes hw 0 bs

end Sys2Proof.Machine
end

