-- ==== Sys2Proof/Laws/PerInstr.lean ====
section
/-! SUPPORT. One family of facts about every command as syntax: the fields of its word (spec 30_encoding.md R81). -/

namespace Sys2Proof.Laws.CommandFields

/-- The reserved field of a command's word is 0, its group field is that of its format, and a command
that names a width has it in W. -/
def Statement (i : Instr) : Prop :=
  wordField (encode i) 31 8 = 0 ∧
    (i.optionGroup = "CRC24" → wordField (encode i) 7 4 = 0) ∧
    (i.optionGroup = "BE234" → wordField (encode i) 7 4 = 1) ∧
    (i.optionGroup = "MPI16" → wordField (encode i) 7 4 = 2) ∧
    ∀ n, i.width? = some n → wordField (encode i) 2 0 = n

theorem crcInit : Statement .crcInit :=
  ⟨by decide, by decide, by decide, by decide, fun _ h => nomatch h⟩

theorem crcUpdate : Statement .crcUpdate :=
  ⟨by decide, by decide, by decide, by decide, fun _ h => nomatch h⟩

theorem crcGen : Statement .crcGen :=
  ⟨by decide, by decide, by decide, by decide, fun _ h => nomatch h⟩

theorem crcOut : Statement .crcOut :=
  ⟨by decide, by decide, by decide, by decide, fun _ h => nomatch h⟩

theorem bitlen : Statement .bitlen :=
  ⟨by decide, by decide, by decide, by decide, fun _ h => nomatch h⟩

theorem mpiLoad : Statement .mpiLoad :=
  ⟨by decide, by decide, by decide, by decide, fun _ h => nomatch h⟩

theorem mpiDecode : Statement .mpiDecode :=
  ⟨by decide, by decide, by decide, by decide, fun _ h => nomatch h⟩

theorem mpiEncode : Statement .mpiEncode :=
  ⟨by decide, by decide, by decide, by decide, fun _ h => nomatch h⟩

theorem mpiWlen : Statement .mpiWlen :=
  ⟨by decide, by decide, by decide, by decide, fun _ h => nomatch h⟩

theorem mpiRaw : Statement .mpiRaw :=
  ⟨by decide, by decide, by decide, by decide, fun _ h => nomatch h⟩

theorem beEnc2 : Statement .beEnc2 :=
  ⟨by decide, by decide, by decide, by decide, fun _ h => by
    cases h
    decide⟩

theorem beEnc3 : Statement .beEnc3 :=
  ⟨by decide, by decide, by decide, by decide, fun _ h => by
    cases h
    decide⟩

theorem beEnc4 : Statement .beEnc4 :=
  ⟨by decide, by decide, by decide, by decide, fun _ h => by
    cases h
    decide⟩

theorem beDec2 : Statement .beDec2 :=
  ⟨by decide, by decide, by decide, by decide, fun _ h => by
    cases h
    decide⟩

theorem beDec3 : Statement .beDec3 :=
  ⟨by decide, by decide, by decide, by decide, fun _ h => by
    cases h
    decide⟩

theorem beDec4 : Statement .beDec4 :=
  ⟨by decide, by decide, by decide, by decide, fun _ h => by
    cases h
    decide⟩

end Sys2Proof.Laws.CommandFields
end

