-- ==== Sys2Proof/Laws/Step.lean ====
section
/-! SUPPORT. What a step can do, said once: with nothing pending it changes nothing; else it performs the oldest operation. -/

namespace Sys2Proof.Machine

theorem step_of_idle {s : State} (h : s.pending = []) : step s = .next s := by
  simp [step, h]

theorem step_of_pending {s : State} {op : HostOp} {rest : List HostOp} (h : s.pending = op :: rest) :
    step s = issue op { s with pending := rest, reply := none } := by
  simp [step, h]

/-- A step from `withFetchWord` issues exactly that command word. -/
theorem step_withFetchWord (s : State) (nbits w : Nat) :
    step (s.withFetchWord nbits w) =
      runCommand (BitVec.ofNat 32 (w % 2 ^ nbits)) { s with reply := none } := rfl

end Sys2Proof.Machine
end

