-- ==== Sys2Proof/Tests/Slice0.lean ====
section
/-! SUPPORT. Small tests, each expected value taken from the spec (95_test_vectors.md, or the example of the command's rule), and a witness for the hypotheses of every statement. -/

namespace Sys2Proof.Tests

open Sys2Proof.Machine

/-- The reset state of capacity 16 with the input window bs, as 95_test_vectors.md starts. -/
def given (bs : List Byte) : State :=
  { State.resetAt 16#32 with
    ibuf := Memory.writeBytes [] 0 bs, inLen := BitVec.ofNat 32 bs.length }

/-- The same holding the MPInt r. -/
def holding (r : List Byte) : State :=
  { State.resetAt 16#32 with
    mbuf := Memory.writeBytes [] 0 r, mpiLen := BitVec.ofNat 32 r.length }

/-- The reset state of capacity 16 with VAL = v. -/
def valued (v : Word) : State :=
  { State.resetAt 16#32 with val := v }

/-- The state with op as the host's next operation. -/
def issuing (s : State) (op : HostOp) : State :=
  { s with pending := [op] }

/-- A view of the next state; `none` where there is none. -/
def after {α : Type} (o : Host.Outcome State Fault Refusal) (view : State → α) : Option α :=
  match o with
  | .next t => some (view t)
  | .fault _ => none
  | .refused _ => none

/-- ERR, ERR_ARG and EACC. -/
def report (s : State) : Nat × Word × Bool :=
  (statusErr s, s.errArg, statusEacc s)

/-! ### Well-formedness: each check refuses an ill-formed term -/

theorem test_capacity_three_refused : capacityWellFormed 3 = false := by decide
theorem test_capacity_above_max_refused : capacityWellFormed (2 ^ 28 + 1) = false := by decide
theorem test_width_one_refused : widthWellFormed 1 = false := by decide
theorem test_width_five_refused : widthWellFormed 5 = false := by decide
theorem test_outside_operation_refused : HostOp.outside.wellFormed = false := by decide
theorem test_loadin_too_long_refused :
    AsmLine.wellFormed 4 (.loadin [1, 2, 3, 4, 5]) = false := by decide
theorem test_commands_well_formed (i : Instr) : i.wellFormed = true := by cases i <;> rfl

/-! ### Decoding: one word of each family bit by bit, and the illegal words of section 2.8 -/

theorem test_word_crc_gen :
    decode 0b00000000000000000000000000000011#32 = .ok .crcGen := by decide
theorem test_word_mpi_decode :
    decode 0b00000000000000000000000000100010#32 = .ok .mpiDecode := by decide
theorem test_word_be_dec3 :
    decode 0b00000000000000000000000000011011#32 = .ok .beDec3 := by decide
theorem test_word_zero : decode 0x00000000#32 = .error .crcFunction := by decide
theorem test_word_reserved_bit : decode 0x80000003#32 = .error .reservedBits := by decide
theorem test_word_be_width_five : decode 0x0000001D#32 = .error .beWidth := by decide
theorem test_word_mpi_six : decode 0x00000026#32 = .error .mpiFunction := by decide
theorem test_word_group_three : decode 0x00000030#32 = .error .unknownGroup := by decide
theorem test_table_word : decodeTableWord 32 0x14 = some .beEnc4 := by decide

/-! ### CRC24: section 2.1 and the examples of R100 to R105 -/

theorem test_crcInit :
    after (exec .crcInit { given [] with crc := 0x00123456#32 }) State.crc = some 0x00B704CE#32 := by
  decide
theorem test_crcUpdate_zero_byte :
    after (exec .crcUpdate (given [0x00])) State.crc = some 0x006169D3#32 := by decide +kernel
theorem test_crcUpdate_one_byte :
    after (exec .crcUpdate (given [0x01])) State.crc = some 0x00E72528#32 := by decide +kernel
theorem test_crcGen_check_string :
    after (exec .crcGen (given [0x31, 0x32, 0x33, 0x34, 0x35, 0x36, 0x37, 0x38, 0x39]))
      (fun t => (t.crc, output t)) = some (0x0021CF02#32, [0x21, 0xCF, 0x02]) := by decide +kernel
theorem test_crcGen_init_bytes :
    after (exec .crcGen (given [0xB7, 0x04, 0xCE])) State.crc = some 0#32 := by decide +kernel
theorem test_crcOut_after_reset :
    after (exec .crcOut (given [])) output = some [0xB7, 0x04, 0xCE] := by decide +kernel

/-! ### MPI16: sections 2.2 to 2.5 -/

theorem test_bitlen_leading_zero :
    after (exec .bitlen (given [0x00, 0x80, 0x00])) State.val = some 16#32 := by decide
theorem test_bitlen_five_bytes :
    after (exec .bitlen (given [0x00, 0x09, 0x01, 0x00, 0xAA])) State.val = some 28#32 := by decide
theorem test_mpiLoad_strips :
    after (exec .mpiLoad (given [0x00, 0x00, 0x01, 0x00])) (fun t => (mpint t, t.mpiLen)) =
      some ([0x01, 0x00], 2#32) := by decide
theorem test_mpiLoad_all_zero :
    after (exec .mpiLoad (given [0x00, 0x00])) (fun t => (t.mbuf, t.mpiLen)) = some ([], 0#32) := by
  decide
theorem test_mpiDecode_trailing_byte :
    after (exec .mpiDecode (given [0x00, 0x09, 0x01, 0xFF, 0xEE]))
      (fun t => (mpint t, t.consumed, report t)) =
      some ([0x01, 0xFF], 4#32, (0, 0#32, false)) := by decide
theorem test_mpiDecode_too_short :
    after (exec .mpiDecode (given [0x00, 0x09, 0x01])) (fun t => (t.consumed, report t)) =
      some (0#32, (1, 3#32, true)) := by decide
theorem test_mpiEncode :
    after (exec .mpiEncode (holding [0x01, 0x00])) output = some [0x00, 0x09, 0x01, 0x00] := by
  decide
theorem test_mpiEncode_non_canonical :
    after (exec .mpiEncode (holding [0x00, 0x01])) output = some [0x00, 0x01, 0x00, 0x01] := by
  decide
theorem test_mpiWlen :
    after (exec .mpiWlen (holding [0x01, 0x00])) State.val = some 4#32 := by decide
theorem test_mpiWlen_non_canonical :
    after (exec .mpiWlen (holding [0x00, 0x01])) State.val = some 3#32 := by decide
theorem test_mpiRaw :
    after (exec .mpiRaw (holding [0x00, 0x01])) (fun t => (output t, t.outLen)) =
      some ([0x00, 0x01], 2#32) := by decide

/-! ### BE234: sections 2.6 and 2.7 -/

theorem test_beEnc2_drops_high_bits :
    after (exec .beEnc2 (valued 0x00012345#32)) output = some [0x23, 0x45] := by decide
theorem test_beEnc3_drops_high_byte :
    after (exec .beEnc3 (valued 0xFF21CF02#32)) output = some [0x21, 0xCF, 0x02] := by decide
theorem test_beEnc4 :
    after (exec .beEnc4 (valued 0x01020304#32)) output = some [0x01, 0x02, 0x03, 0x04] := by decide
theorem test_beDec2_ignores_the_rest :
    after (exec .beDec2 (given [0x01, 0x02, 0x03, 0x04, 0x05])) State.val = some 0x0102#32 := by
  decide
theorem test_beDec2_too_short :
    after (exec .beDec2 { given [0x00] with val := 0xDEADBEEF#32 }) (fun t => (t.val, report t)) =
      some (0xDEADBEEF#32, (1, 1#32, true)) := by decide
theorem test_beDec3 :
    after (exec .beDec3 (given [0x21, 0xCF, 0x02])) State.val = some 0x0021CF02#32 := by decide
theorem test_beDec3_too_short :
    after (exec .beDec3 (given [0x00, 0x09])) report = some (1, 2#32, true) := by decide
theorem test_beDec4_all_ones :
    after (exec .beDec4 (given [0xFF, 0xFF, 0xFF, 0xFF])) State.val = some 0xFFFFFFFF#32 := by decide
theorem test_beDec4_empty :
    after (exec .beDec4 (given [])) report = some (1, 0#32, true) := by decide

/-! ### The host port: section 2.9, and errors by the step -/

theorem test_inLen_above_capacity_ignored :
    after (step (issuing (given []) (.wr 5#32 17#32))) State.inLen = some 0#32 := by decide
theorem test_inLen_capacity_stored :
    after (step (issuing (given []) (.wr 5#32 16#32))) State.inLen = some 16#32 := by decide
theorem test_crc_write_ignored :
    after (step (issuing (given []) (.wr 4#32 0x1234#32))) State.crc = some 0x00B704CE#32 := by decide
theorem test_read_cap :
    after (step (issuing (given []) (.rd 9#32))) State.reply = some (some (.word 16#32)) := by decide
theorem test_read_reserved_register :
    after (step (issuing (given []) (.rd 10#32))) State.reply = some (some (.word 0#32)) := by decide
theorem test_clear_eacc_keeps_err :
    after (step (issuing (raise .tooShort 3#32 (given [])) (.wr 1#32 0x100#32))) report =
      some (1, 3#32, false) := by decide
theorem test_status_write_without_bit_eight :
    after (step (issuing (raise .tooShort 3#32 (given [])) (.wr 1#32 0x0F#32))) report =
      some (1, 3#32, true) := by decide
theorem test_byte_write_past_capacity :
    after (step (issuing (given []) (.wrb 16 0x55))) State.ibuf = some [] := by decide
theorem test_byte_read_past_capacity :
    after (step (issuing (given []) (.rdb .obuf 18))) State.reply = some (some (.byte 0)) := by decide
theorem test_illegal_word :
    after (step (issuing (given []) (.wr 0#32 0x80000003#32))) report =
      some (2, 0x80000003#32, true) := by decide
theorem test_success_keeps_eacc :
    after (exec .beDec2 (raise .tooShort 3#32 (given [0x00, 0x09]))) (fun t => (t.val, report t)) =
      some (9#32, (0, 0#32, true)) := by decide
theorem test_reset_operation :
    after (step (issuing { holding [0x01] with val := 7#32 } .reset))
      (fun t => (t.val, t.mpiLen, t.mbuf, t.cap)) = some (0#32, 0#32, [], 16#32) := by decide
theorem test_first_instruction_after_reset :
    after (step (State.reset.withFetchWord 32 0x13)) (fun t => (output t, t.pending)) =
      some ([0x00, 0x00, 0x00], []) := by decide

/-! ### Witnesses: states that meet the hypotheses of the statements -/

/-- A state of capacity 16 with the window [00 09 01 FF], the MPInt [00 01] and some VAL. -/
def sample : State :=
  { given [0x00, 0x09, 0x01, 0xFF] with
    val := 0xFF21CF02#32, mbuf := [(1, 0x01)], mpiLen := 2#32, obuf := [(17, 0xEE)], outLen := 18#32 }

theorem capacity_sixteen : capacityWellFormed (16#32 : Word).toNat = true := by decide
theorem capacity_recommended : capacityWellFormed (8194#32 : Word).toNat = true := by decide
theorem crcInit_lt : crcInitValue.toNat < 2 ^ 24 := by decide
theorem zero_err_le : ((0#32 : Word) &&& errMask).toNat ≤ 3 := by decide
theorem zero_reserved : (0#32 : Word) &&& ~~~(errMask ||| eaccMask) = 0#32 := by decide
theorem mpiLen_long_le : (8192#32 : Word).toNat ≤ (8194#32 : Word).toNat := by decide

/-- The state after a command, as a term. -/
def nextOf (i : Instr) (s : State) : State :=
  (after (exec i s) id).getD s

theorem exec_nextOf (i : Instr) (s : State) : exec i s = .next (nextOf i s) := by
  rw [nextOf, exec_eq]
  rfl

theorem stateInv_given {bs : List Byte} (h : bs.length ≤ 16) : StateInv (given bs) where
  capacity := capacity_sixteen
  cmdZero := rfl
  inLenLe := by
    change (BitVec.ofNat 32 bs.length).toNat ≤ 16
    rw [BitVec.toNat_ofNat]
    omega
  mpiLenLe := Nat.zero_le _
  outLenLe := Nat.zero_le _
  consumedLe := Nat.zero_le _
  crcLt := crcInit_lt
  errLe := zero_err_le
  reservedZero := zero_reserved
  ibufWf := Memory.wf_writeBytes rfl _ _
  mbufWf := rfl
  obufWf := rfl
  ibufWithin := Memory.within_writeBytes rfl (by
    have hc : (given bs).cap.toNat = 16 := rfl
    omega)
  mbufWithin := rfl
  obufWithin := rfl

theorem stateInv_sample : StateInv sample := by
  constructor <;> decide

theorem trueReport_sample : TrueReport sample := by
  constructor <;> intro h <;> first | rfl | exact absurd h (by decide)

/-- The same machine of capacity 8194 with the MPInt of 8192 bytes that starts with byte b. -/
def long (b : Byte) : State :=
  { State.resetAt 8194#32 with mbuf := [(0, b)], mpiLen := 8192#32 }

theorem mpint_long (b : Byte) : mpint (long b) = b :: Memory.readBytes [(0, b)] 1 8191 := by
  have h : (long b).mpiLen.toNat = 8191 + 1 := rfl
  rw [mpint, h, Memory.readBytes_succ]
  rfl

theorem witness_resets : ∃ s : State, ∃ rest, s.pending = .reset :: rest :=
  ⟨issuing sample .reset, [], rfl⟩
theorem witness_capacity_least : capacityWellFormed (4#32 : Word).toNat = true := by decide
theorem witness_capacity_greatest : capacityWellFormed (0x10000000#32 : Word).toNat = true := by
  decide
theorem witness_step_keeps_invariants :
    ∃ s t : State, StateInv s ∧ TrueReport s ∧ step s = .next t ∧ t.val ≠ s.val :=
  ⟨sample.withFetchWord 32 0x1A, nextOf .beDec2 sample,
    by constructor <;> decide, by constructor <;> intro h <;> first | rfl | exact absurd h (by decide),
    exec_nextOf .beDec2 sample, by decide⟩
theorem witness_fold_bound : (0x00FFFFFF#32 : Word).toNat < 2 ^ 24 := by decide
theorem witness_commands : ∃ s : State, StateInv s ∧ Memory.wf s.obuf = true ∧ s.inLen ≠ 0#32 :=
  ⟨sample, stateInv_sample, by decide, by decide⟩
theorem witness_empty_window : ∃ s : State, StateInv s ∧ s.inLen = 0#32 :=
  ⟨given [], stateInv_given (by simp), rfl⟩
theorem witness_supplied (s : State) (bs : List Byte) (h : bs.length < 2 ^ 32) :
    Supplied s bs { s with ibuf := Memory.writeBytes [] 0 bs, inLen := BitVec.ofNat 32 bs.length } := by
  refine ⟨rfl, ?_⟩
  have hl : (BitVec.ofNat 32 bs.length).toNat = bs.length := by simpa using h
  simp only [window, hl]
  exact Memory.readBytes_writeBytes rfl 0 bs
theorem witness_streamed :
    ∃ (s s₁ t₁ t u g : State), StateInv s ∧ exec .crcInit s = .next s₁ ∧
      Streamed [[0x31], [0x32]] s₁ t₁ ∧ exec .crcOut t₁ = .next t ∧ StateInv u ∧
      window u = [[0x31], [0x32]].flatten ∧ exec .crcGen u = .next g :=
  ⟨sample, _, _, _, given [0x31, 0x32], _, stateInv_sample, rfl,
    .fold (witness_supplied _ [0x31] (by decide)) rfl
      (.fold (witness_supplied _ [0x32] (by decide)) rfl (.done _)),
    rfl, stateInv_given (by decide), by decide, rfl⟩
theorem witness_residue :
    ∃ (s : State) (m : List Byte),
      window s = m ++ be 3 (crc24Fold crcInitValue m).toNat ∧ m ≠ [] :=
  ⟨given [0x61, 0xF2, 0x57, 0x13], [0x61], by decide +kernel, by decide⟩
theorem witness_bitlen_all_zero :
    ∃ s : State, StateInv s ∧ s.inLen = 2#32 ∧
      ∀ k < s.inLen.toNat, Memory.read s.ibuf k = 0#8 :=
  ⟨given [0, 0], stateInv_given (by decide), rfl, by decide⟩
theorem witness_bitlen_last_byte_high_bit :
    ∃ s : State, StateInv s ∧ 1 < s.inLen.toNat ∧ (∀ j < 1, Memory.read s.ibuf j = 0#8) ∧
      2 ^ 7 ≤ (Memory.read s.ibuf 1).toNat ∧ (Memory.read s.ibuf 1).toNat < 2 ^ (7 + 1) :=
  ⟨given [0x00, 0x80], stateInv_given (by decide), by decide, by decide, by decide, by decide⟩
theorem witness_bitlen_first_byte_low_bit :
    ∃ s : State, StateInv s ∧ 0 < s.inLen.toNat ∧ (∀ j < 0, Memory.read s.ibuf j = 0#8) ∧
      2 ^ 0 ≤ (Memory.read s.ibuf 0).toNat ∧ (Memory.read s.ibuf 0).toNat < 2 ^ (0 + 1) :=
  ⟨given [0x01, 0x00], stateInv_given (by decide), by decide, by decide, by decide, by decide⟩
theorem witness_mpiLoad_all_zero_and_not :
    (∃ s : State, StateInv s ∧ window s = [0, 0]) ∧ ∃ s : State, StateInv s ∧ window s = [0, 1] :=
  ⟨⟨given [0, 0], stateInv_given (by decide), by decide⟩,
    given [0, 1], stateInv_given (by decide), by decide⟩
theorem witness_mpiDecode_first_check :
    ∃ s : State, StateInv s ∧ s.inLen.toNat = 1 :=
  ⟨given [0x00], stateInv_given (by decide), by decide⟩
theorem witness_mpiDecode_second_check :
    ∃ s : State, StateInv s ∧ s.inLen.toNat = 3 ∧
      ((Memory.read s.ibuf 0).toNat * 256 + (Memory.read s.ibuf 1).toNat + 7) / 8 = 2 :=
  ⟨given [0x00, 0x09, 0x01], stateInv_given (by decide), by decide, by decide⟩
theorem witness_mpiDecode_exact_length :
    ∃ s : State, StateInv s ∧ s.inLen.toNat = 4 ∧
      ((Memory.read s.ibuf 0).toNat * 256 + (Memory.read s.ibuf 1).toNat + 7) / 8 = 2 :=
  ⟨sample, stateInv_sample, by decide, by decide⟩
theorem stateInv_long {b : Byte} (h : b ≠ 0#8) : StateInv (long b) where
  capacity := capacity_recommended
  cmdZero := rfl
  inLenLe := Nat.zero_le _
  mpiLenLe := mpiLen_long_le
  outLenLe := Nat.zero_le _
  consumedLe := Nat.zero_le _
  crcLt := crcInit_lt
  errLe := zero_err_le
  reservedZero := zero_reserved
  ibufWf := rfl
  mbufWf := by simp [long, Memory.wf, Memory.wfFrom, h]
  obufWf := rfl
  ibufWithin := rfl
  mbufWithin := rfl
  obufWithin := rfl
theorem witness_mpiEncode_least_overflow :
    ∃ s : State, StateInv s ∧ bitLengthOf (mpint s) = 65536 :=
  ⟨long 0x80, stateInv_long (by decide), by
    rw [mpint_long, bitLengthOf, stripLZ_cons_of_ne (by decide)]
    simp only [Memory.length_readBytes]
    decide⟩
theorem witness_mpiEncode_greatest_length :
    ∃ s : State, StateInv s ∧ bitLengthOf (mpint s) = 65535 :=
  ⟨long 0x7F, stateInv_long (by decide), by
    rw [mpint_long, bitLengthOf, stripLZ_cons_of_ne (by decide)]
    simp only [Memory.length_readBytes]
    decide⟩
theorem witness_wire_length_non_canonical :
    ∃ (s w e : State), StateInv s ∧ 1 < s.mpiLen.toNat ∧ (∀ j < 1, Memory.read s.mbuf j = 0#8) ∧
      Memory.read s.mbuf 1 ≠ 0#8 ∧ exec .mpiWlen s = .next w ∧ exec .mpiEncode s = .next e ∧
      statusErr e = 0 :=
  ⟨sample, _, _, stateInv_sample, by decide, by decide, by decide, exec_nextOf _ _, exec_nextOf _ _,
    by decide⟩
theorem witness_wire_length_canonical :
    ∃ (s w e : State), StateInv s ∧ s.mpiLen.toNat = 0 ∧ exec .mpiWlen s = .next w ∧
      exec .mpiEncode s = .next e ∧ statusErr e = 0 :=
  ⟨given [], _, _, stateInv_given (by decide), by decide, exec_nextOf _ _, exec_nextOf _ _,
    by decide⟩
theorem witness_round_trip :
    ∃ (s : State), StateInv s ∧ window s = [0x00, 0x01, 0xFF] ∧
      bitLengthOf [0x00, 0x01, 0xFF] ≤ 65535 ∧ 2 + (stripLZ [0x00, 0x01, 0xFF]).length ≤ s.cap.toNat :=
  ⟨given [0x00, 0x01, 0xFF], stateInv_given (by decide), by decide, by decide, by decide⟩
theorem witness_round_trip_fed_back :
    ∃ t₂ u : State, after (exec .mpiLoad (given [0x00, 0x01, 0xFF]))
        (fun t₁ => after (exec .mpiEncode t₁) id) = some (some t₂) ∧
      StateInv u ∧ Supplied t₂ (output t₂) u :=
  let t₂ := ((after (exec .mpiLoad (given [0x00, 0x01, 0xFF]))
    (fun t₁ => after (exec .mpiEncode t₁) id)).getD none).getD sample
  let u := { t₂ with ibuf := Memory.writeBytes [] 0 (output t₂), inLen := 4#32 }
  ⟨t₂, u, by decide, by constructor <;> decide, rfl, by decide⟩
theorem witness_zero_mpint :
    (∃ s : State, StateInv s ∧ window s ≠ [] ∧ ∀ b ∈ window s, b = 0#8) ∧
      ∃ s : State, StateInv s ∧ window s = [0x00, 0x00] :=
  ⟨⟨given [0, 0, 0], stateInv_given (by decide), by decide, by decide⟩,
    given [0, 0], stateInv_given (by decide), by decide⟩
theorem witness_decode_then_encode :
    ∃ s : State, StateInv s ∧ window s = [0x00, 0x10, 0x00, 0x01] :=
  ⟨given [0x00, 0x10, 0x00, 0x01], stateInv_given (by decide), by decide⟩
theorem witness_be_dec_lengths :
    ∀ n ∈ [2, 3, 4], (∃ s : State, s.inLen.toNat = n - 1) ∧ ∃ s : State, s.inLen.toNat = n :=
  fun n h => by
    have hn : n ≤ 4 := by simp at h; omega
    exact ⟨⟨{ sample with inLen := BitVec.ofNat 32 (n - 1) }, by simp; omega⟩,
      { sample with inLen := BitVec.ofNat 32 n }, by simp; omega⟩
theorem witness_be_inverse_encode :
    ∃ s t u : State, StateInv s ∧ exec .beEnc3 s = .next t ∧ Supplied t (output t) u :=
  ⟨sample, _, _, stateInv_sample, rfl, witness_supplied _ _ (by simp)⟩
theorem witness_be_inverse_decode :
    ∃ s t : State, StateInv s ∧ 4 ≤ s.inLen.toNat ∧ exec .beDec4 s = .next t :=
  ⟨sample, _, stateInv_sample, by decide, exec_nextOf _ _⟩
theorem witness_helper_length : ([1, 2, 3] : List Byte).length = 3 := rfl
theorem witness_helper_positive : 0 < bitLengthOf [0x00, 0x01] := by decide
theorem witness_illegal_word : ∀ i : Instr, (0x00000005#32 : Word) ≠ encode i := by
  intro i
  cases i <;> decide
theorem witness_error_causes :
    (∃ s : State, StateInv s ∧ commandError .mpiDecode s = some (.tooShort, 3)) ∧
      (∃ s : State, StateInv s ∧ commandError .beDec4 s = some (.tooShort, 3)) ∧
      ∃ s : State, StateInv s ∧ commandError .mpiDecode s = none :=
  ⟨⟨given [0x00, 0x09, 0x01], stateInv_given (by decide), by decide⟩,
    ⟨given [0x00, 0x09, 0x01], stateInv_given (by decide), by decide⟩,
    sample, stateInv_sample, by decide⟩
theorem witness_raising_command :
    ∃ (w : Word) (s t : State), runCommand w s = .next t ∧ statusErr t ≠ 0 :=
  ⟨0x05#32, sample, _, rfl, by decide⟩
theorem witness_eacc_cleared :
    ∃ s t : State, step s = .next t ∧ statusEacc s = true ∧ statusEacc t = false :=
  ⟨issuing (raise .tooShort 3#32 sample) (.wr 1#32 0x100#32), _, rfl, by decide, by decide⟩
theorem witness_never_stops :
    ∃ s : State, s.pending ≠ [] ∧ ∀ op ∈ s.pending, op.wellFormed = true :=
  ⟨issuing sample (.rd 1#32), by decide, by decide⟩
theorem witness_outside : ∃ s : State, ∃ rest, s.pending = .outside :: rest :=
  ⟨issuing sample .outside, [], rfl⟩
theorem witness_command_frames :
    ∃ (i : Instr) (s t : State), exec i s = .next t ∧ writesCrc i = false ∧ writesVal i = false ∧
      writesMpint i = false ∧ writesConsumed i = false ∧ writesOutput i = true :=
  ⟨.mpiRaw, sample, _, rfl, by decide, by decide, by decide, by decide, by decide⟩
theorem witness_agree :
    ∃ s s' : State, StateInv s ∧ StateInv s' ∧ AgreeOnOperands s s' ∧ s.obuf ≠ s'.obuf ∧
      s.mbuf ≠ s'.mbuf ∧ s.ibuf ≠ s'.ibuf :=
  let s' := { sample with ibuf := Memory.write sample.ibuf 9 0x77, mbuf := [(1, 0x01), (5, 0x55)],
                          obuf := [] }
  ⟨sample, s', stateInv_sample, by constructor <;> decide, ⟨rfl, by decide, by decide⟩, by decide,
    by decide, by decide⟩
theorem witness_host_write :
    ∀ r v : Word, ∃ s : State, ∃ rest, s.pending = .wr r v :: rest ∧ s.cap.toNat = 16 :=
  fun r v => ⟨issuing sample (.wr r v), [], rfl, rfl⟩
theorem witness_host_write_inLen_edges :
    (16#32 : Word).toNat ≤ sample.cap.toNat ∧ sample.cap.toNat < (17#32 : Word).toNat := by decide
theorem witness_host_read : ∀ r : Word, ∃ s : State, ∃ rest, s.pending = .rd r :: rest :=
  fun r => ⟨issuing sample (.rd r), [], rfl⟩
theorem witness_byte_write :
    ∀ i b, ∃ s : State, ∃ rest, Memory.wf s.ibuf = true ∧ s.pending = .wrb i b :: rest :=
  fun i b => ⟨issuing sample (.wrb i b), [], rfl, rfl⟩
theorem witness_byte_read : ∀ buf i, ∃ s : State, ∃ rest, s.pending = .rdb buf i :: rest :=
  fun buf i => ⟨issuing sample (.rdb buf i), [], rfl⟩
theorem witness_no_direct_write :
    ∃ s t : State, step s = .next t ∧ (∀ w rest, s.pending ≠ .wr 0#32 w :: rest) ∧
      ∀ rest, s.pending ≠ .reset :: rest :=
  ⟨issuing sample (.wr 4#32 7#32), _, rfl, by simp [issuing], by simp [issuing]⟩
theorem witness_idempotent :
    ∃ s t : State, StateInv s ∧ s.pending = [.wrb 3 0x07, .wrb 3 0x07] ∧ step s = .next t :=
  ⟨{ sample with pending := [.wrb 3 0x07, .wrb 3 0x07] }, _, by constructor <;> decide, rfl, rfl⟩
theorem witness_loadin_full :
    ∃ (s : State) (bs : List Byte), StateInv s ∧ bs.length = s.cap.toNat ∧
      AsmLine.wellFormed s.cap.toNat (.loadin bs) = true ∧ s.pending = expand (.loadin bs) ++ [] :=
  ⟨{ sample with pending := expand (.loadin (List.replicate 16 0x5A)) }, List.replicate 16 0x5A,
    by constructor <;> decide, by decide, by decide, by simp⟩
theorem witness_step_decodes :
    ∃ (s : State) (w : Word) (i : Instr) (rest : List HostOp),
      s.pending = .wr 0#32 w :: rest ∧ decode w = .ok i :=
  ⟨issuing sample (.wr 0#32 0x22#32), 0x22#32, .mpiDecode, [], rfl, by decide⟩
theorem witness_idle : ∃ s : State, s.pending = [] :=
  ⟨sample, rfl⟩

end Sys2Proof.Tests
end

/-! PROOFS. The derived facts about the byte-list helpers (spec 00_scope.md R15), and the host's list over a
step (R18, R39, R70). -/

namespace Sys2Proof.Machine

/-! ### `BE` and `beval` are inverse (R15) -/

theorem two_pow_eight_mul (n : Nat) : 2 ^ (8 * n) = 256 ^ n := Nat.pow_mul 2 8 n

/-- A byte list of length n has a value below 256^n. -/
theorem beval_lt (s : List Byte) : beval s < 256 ^ s.length := by
  induction s with
  | nil => simp
  | cons b s ih =>
    have hb : b.toNat + 1 ≤ 256 := b.isLt
    calc beval (b :: s) < 256 ^ s.length * (b.toNat + 1) := by rw [beval_cons]; linarith
      _ ≤ 256 ^ s.length * 256 := Nat.mul_le_mul_left _ hb
      _ = 256 ^ (b :: s).length := (Nat.pow_succ ..).symm

theorem beval_be (n v : Nat) : beval (be n v) = v % 2 ^ (8 * n) := by
  induction n with
  | zero => simp [be, Nat.mod_one]
  | succ n ih =>
    have hpow : 2 ^ (8 * (n + 1)) = 2 ^ (8 * n) * 256 := by
      rw [two_pow_eight_mul, two_pow_eight_mul, Nat.pow_succ]
    rw [be, beval_cons, ih, length_be, BitVec.toNat_ofNat, Nat.shiftRight_eq_div_pow, hpow,
      Nat.mod_mul, two_pow_eight_mul, Nat.add_comm]

/-- Byte lists of one length are told apart by their values. -/
theorem eq_of_beval_eq {s t : List Byte} (hl : s.length = t.length) (hv : beval s = beval t) : s = t := by
  induction s generalizing t with
  | nil => exact (List.length_eq_zero_iff.1 hl.symm).symm
  | cons b s ih =>
    obtain _ | ⟨c, t⟩ := t
    · simp at hl
    have hl' : s.length = t.length := Nat.succ.inj hl
    have ht : beval t < 256 ^ s.length := hl' ▸ beval_lt t
    rw [beval_cons, beval_cons, ← hl'] at hv
    have hhead : b.toNat = c.toNat := by
      have := congrArg (· / 256 ^ s.length) hv
      simpa [Nat.mul_add_div, Nat.div_eq_of_lt (beval_lt s), Nat.div_eq_of_lt ht] using this
    have htail : beval s = beval t := by
      rw [hhead] at hv
      exact Nat.add_left_cancel hv
    rw [BitVec.eq_of_toNat_eq hhead, ih hl' htail]

theorem be_beval (s : List Byte) : be s.length (beval s) = s := by
  refine eq_of_beval_eq (length_be _ _) ?_
  rw [beval_be, two_pow_eight_mul, Nat.mod_eq_of_lt (beval_lt s)]

/-! ### `bitLengthOf`, one equation per form of the list -/

@[simp] theorem bitLengthOf_zero_cons (s : List Byte) : bitLengthOf (0#8 :: s) = bitLengthOf s := rfl

theorem bitLengthOf_cons_of_ne {b : Byte} (h : b ≠ 0#8) (s : List Byte) :
    bitLengthOf (b :: s) = blen8 b + 8 * s.length := by
  rw [bitLengthOf, stripLZ_cons_of_ne h]

@[simp] theorem beval_zero_cons (s : List Byte) : beval (0#8 :: s) = beval s := by
  simp [beval_cons]

theorem blen8_pos (b : Byte) : 0 < blen8 b := Nat.succ_pos _

theorem toNat_lt_two_pow_blen8 (b : Byte) : b.toNat < 2 ^ blen8 b := Nat.lt_log2_self

theorem two_pow_blen8_pred_le {b : Byte} (h : b ≠ 0#8) : 2 ^ (blen8 b - 1) ≤ b.toNat :=
  Nat.log2_self_le fun h0 => h (BitVec.eq_of_toNat_eq h0)

theorem bitLengthOf_stripLZ (s : List Byte) : bitLengthOf (stripLZ s) = bitLengthOf s := by
  induction s with
  | nil => rfl
  | cons b s ih =>
    by_cases h : b = 0#8
    · simpa [h] using ih
    · rw [stripLZ_cons_of_ne h]

/-- The bits of a list fill the bytes that follow its leading zeros. -/
theorem ceil8_bitLengthOf (s : List Byte) : ceil8 (bitLengthOf s) = (stripLZ s).length := by
  induction s with
  | nil => rfl
  | cons b s ih =>
    by_cases h : b = 0#8
    · simpa [h] using ih
    · have hpos := blen8_pos b
      have hle := blen8_le b
      rw [bitLengthOf_cons_of_ne h, stripLZ_cons_of_ne h, ceil8, List.length_cons]
      omega

theorem bitLengthOf_le (s : List Byte) : bitLengthOf s ≤ 8 * s.length := by
  have hbytes := ceil8_bitLengthOf s
  have hstrip := length_stripLZ_le s
  unfold ceil8 at hbytes
  omega

theorem beval_lt_two_pow_bitLengthOf (s : List Byte) : beval s < 2 ^ bitLengthOf s := by
  induction s with
  | nil => simp [bitLengthOf_nil]
  | cons b s ih =>
    by_cases h : b = 0#8
    · simpa [h] using ih
    · have hs := beval_lt s
      calc beval (b :: s) < 256 ^ s.length * (b.toNat + 1) := by rw [beval_cons]; linarith
        _ ≤ 256 ^ s.length * 2 ^ blen8 b := Nat.mul_le_mul_left _ (toNat_lt_two_pow_blen8 b)
        _ = 2 ^ bitLengthOf (b :: s) := by
          rw [bitLengthOf_cons_of_ne h, Nat.pow_add, two_pow_eight_mul, Nat.mul_comm]

theorem two_pow_bitLengthOf_pred_le {s : List Byte} (hpos : 0 < bitLengthOf s) :
    2 ^ (bitLengthOf s - 1) ≤ beval s := by
  induction s with
  | nil => exact absurd hpos (Nat.lt_irrefl 0)
  | cons b s ih =>
    by_cases h : b = 0#8
    · simpa [h] using ih (by simpa [h] using hpos)
    · have hlen : bitLengthOf (b :: s) - 1 = 8 * s.length + (blen8 b - 1) := by
        have := blen8_pos b
        rw [bitLengthOf_cons_of_ne h]
        omega
      calc 2 ^ (bitLengthOf (b :: s) - 1) = 256 ^ s.length * 2 ^ (blen8 b - 1) := by
            rw [hlen, Nat.pow_add, two_pow_eight_mul]
        _ ≤ 256 ^ s.length * b.toNat := Nat.mul_le_mul_left _ (two_pow_blen8_pred_le h)
        _ ≤ beval (b :: s) := Nat.le_add_right _ _

/-- Settles O27: each conjunct is a lemma above; `BE` after `beval` by injectivity of `beval` on
lists of one length, the bounds by induction over the leading zeros. -/
theorem helperFactsHold : Obligations.HelperFactsHold := by
  unfold Obligations.HelperFactsHold
  exact ⟨beval_be, fun _ s hs => hs ▸ be_beval s, fun s => (bitLengthOf_stripLZ s).symm,
    ceil8_bitLengthOf, bitLengthOf_le,
    fun s => ⟨beval_lt_two_pow_bitLengthOf s, two_pow_bitLengthOf_pred_le⟩⟩

/-! ### No operation touches the host's list (R39, R70) -/

theorem exec_pending {i : Instr} {s t : State} (h : exec i s = .next t) : t.pending = s.pending := by
  obtain ⟨k, arg, -, rfl⟩ | ⟨-, rfl⟩ := exec_next_cases h
  · rfl
  · obtain ⟨-, -, -, -, -, -, hpending, -⟩ := commandEffect_frame i s
    rw [ok_pending, hpending]

theorem runCommand_pending {w : Word} {s t : State} (h : runCommand w s = .next t) :
    t.pending = s.pending := by
  unfold runCommand at h
  split at h
  · exact exec_pending h
  · cases h
    rfl

/-- Only a write to CMD runs a command; to each other register it sets fields of the core at most. -/
theorem hpWr_pending {r v : Word} {s t : State} (h : hpWr r v s = .next t) : t.pending = s.pending := by
  unfold hpWr at h
  split at h
  · exact runCommand_pending h
  · cases h
    split <;> rfl
  · cases h
    rfl
  · cases h
    split <;> rfl
  · cases h
    rfl

theorem hpWrb_pending (i : Nat) (b : Byte) (s : State) : (hpWrb i b s).pending = s.pending := by
  unfold hpWrb
  split <;> rfl

theorem issue_pending {op : HostOp} {s t : State} (h : issue op s = .next t) : t.pending = s.pending := by
  cases op with
  | wr r v => exact hpWr_pending h
  | wrb i b =>
    cases h
    exact hpWrb_pending i b s
  | rd r =>
    cases h
    rfl
  | rdb buf i =>
    cases h
    rfl
  | reset =>
    cases h
    rfl
  | outside => cases h

/-- Every step takes the oldest operation off the host's list; an empty list stays empty. -/
theorem step_pending {s t : State} (h : step s = .next t) : t.pending = s.pending.tail := by
  cases hp : s.pending with
  | nil =>
    rw [step_of_idle hp] at h
    cases h
    exact hp
  | cons op rest =>
    rw [step_of_pending hp] at h
    exact issue_pending h

/-- Settles O46: no operation touches the host's list, so a step only takes its head off. -/
theorem aStepTakesTheOldestOperation : Obligations.AStepTakesTheOldestOperation := by
  unfold Obligations.AStepTakesTheOldestOperation
  exact ⟨fun _ => step_of_idle, fun _ _ => step_pending⟩

end Sys2Proof.Machine

/-! PROOFS. The host port (spec 10_state.md R40 to R45), the two invariants over every step (R35, R23,
R171), and what a command's results depend on (R27, R32, R120). -/

namespace Sys2Proof.Machine

/-! ### Registers by number (R40, R41) -/

section registerWrites

variable {r : Word} (v : Word) (s : State)

theorem hpWr_cmd (h : r.toNat = 0) : hpWr r v s = runCommand v s := by simp [hpWr, h]

theorem hpWr_status (h : r.toNat = 1) :
    hpWr r v s = .next (if v.getLsbD 8 then clearEacc s else s) := by simp [hpWr, h]

theorem hpWr_val (h : r.toNat = 3) : hpWr r v s = .next { s with val := v } := by simp [hpWr, h]

theorem hpWr_inLen (h : r.toNat = 5) :
    hpWr r v s = .next (if v.toNat ≤ s.cap.toNat then { s with inLen := v } else s) := by
  simp [hpWr, h]

theorem hpWr_other (h : r.toNat ∉ [0, 1, 3, 5]) : hpWr r v s = .next s := by
  simp only [List.mem_cons, List.not_mem_nil, or_false, not_or] at h
  obtain ⟨h0, h1, h3, h5⟩ := h
  unfold hpWr
  split
  · exact absurd ‹_› h0
  · exact absurd ‹_› h1
  · exact absurd ‹_› h3
  · exact absurd ‹_› h5
  · rfl

end registerWrites

/-- The registers in the order of their numbers; past the last one a read gives 0. -/
theorem hpRd_eq_getD (r : Word) (s : State) :
    hpRd r s = [0#32, s.status, s.errArg, s.val, s.crc, s.inLen, s.outLen, s.mpiLen, s.consumed,
      s.cap].getD r.toNat 0#32 := by
  unfold hpRd
  generalize r.toNat = n
  match n with
  | 0 | 1 | 2 | 3 | 4 | 5 | 6 | 7 | 8 | 9 => rfl
  | _ + 10 => rfl

theorem runCommand_of_decode {w : Word} {i : Instr} (h : decode w = .ok i) (s : State) :
    runCommand w s = exec i s := by
  simp [runCommand, h]

/-- W1C (R22): bit 8 of STATUS becomes 0, every other bit stays. -/
theorem getLsbD_clearEacc_status (s : State) {i : Nat} (hi : i < 32) :
    (clearEacc s).status.getLsbD i = if i = 8 then false else s.status.getLsbD i := by
  rw [clearEacc_status, BitVec.getLsbD_and, BitVec.getLsbD_not, getLsbD_eaccMask hi]
  by_cases h8 : i = 8 <;> simp [h8, hi]

theorem hpWrb_of_lt {i : Nat} {s : State} (h : i < s.cap.toNat) (b : Byte) :
    hpWrb i b s = { s with ibuf := Memory.write s.ibuf i b } := if_pos h

theorem hpWrb_of_le {i : Nat} {s : State} (h : s.cap.toNat ≤ i) (b : Byte) : hpWrb i b s = s :=
  if_neg (Nat.not_lt.2 h)

theorem hpWrb_frame (i : Nat) (b : Byte) (s : State) :
    hpWrb i b s = { s with ibuf := (hpWrb i b s).ibuf } := by
  by_cases h : i < s.cap.toNat
  · rw [hpWrb_of_lt h]
  · rw [hpWrb_of_le (Nat.not_lt.1 h)]

theorem read_hpWrb {s : State} (hwf : Memory.wf s.ibuf = true) (i : Nat) (b : Byte) (a : Nat) :
    Memory.read (hpWrb i b s).ibuf a =
      if a = i ∧ i < s.cap.toNat then b else Memory.read s.ibuf a := by
  by_cases h : i < s.cap.toNat
  · rw [hpWrb_of_lt h, Memory.read_write hwf]
    simp only [h, and_true]
  · rw [hpWrb_of_le (Nat.not_lt.1 h), if_neg fun hc => h hc.2]

/-! ### What a step can do, said once -/

/-- The effects on the core of a host operation that is neither a command nor a reset (R40 to R43):
none, a reply, the W1C write, or a write of VAL, IN_LEN or a byte of IBUF within its bound. -/
inductive HostAccess (s : State) : State → Prop where
  | none : HostAccess s s
  | reply (r : Option Reply) : HostAccess s { s with reply := r }
  | clear : HostAccess s (clearEacc s)
  | val (v : Word) : HostAccess s { s with val := v }
  | inLen (v : Word) (le : v.toNat ≤ s.cap.toNat) : HostAccess s { s with inLen := v }
  | byte (i : Nat) (b : Byte) (lt : i < s.cap.toNat) :
      HostAccess s { s with ibuf := Memory.write s.ibuf i b }

theorem hpWr_next_cases {r v : Word} {s t : State} (h : hpWr r v s = .next t) :
    (r = 0#32 ∧ runCommand v s = .next t) ∨ HostAccess s t := by
  by_cases h0 : r.toNat = 0
  · rw [hpWr_cmd v s h0] at h
    exact .inl ⟨BitVec.eq_of_toNat_eq h0, h⟩
  refine .inr ?_
  by_cases h1 : r.toNat = 1
  · rw [hpWr_status v s h1] at h
    cases h
    split
    · exact .clear
    · exact .none
  by_cases h3 : r.toNat = 3
  · rw [hpWr_val v s h3] at h
    cases h
    exact .val v
  by_cases h5 : r.toNat = 5
  · rw [hpWr_inLen v s h5] at h
    cases h
    split
    · exact .inLen v ‹_›
    · exact .none
  rw [hpWr_other v s (by simp [h0, h1, h3, h5])] at h
  cases h
  exact .none

theorem hpWrb_access (i : Nat) (b : Byte) (s : State) : HostAccess s (hpWrb i b s) := by
  by_cases h : i < s.cap.toNat
  · rw [hpWrb_of_lt h]
    exact .byte i b h
  · rw [hpWrb_of_le (Nat.not_lt.1 h)]
    exact .none

/-- The inversion of an operation: a command, a reset, or an access of the port. -/
theorem issue_next_cases {op : HostOp} {s t : State} (h : issue op s = .next t) :
    (∃ w, op = .wr 0#32 w ∧ runCommand w s = .next t) ∨ (op = .reset ∧ t = hpReset s) ∨
      HostAccess s t := by
  cases op with
  | wr r v =>
    obtain ⟨rfl, hrun⟩ | haccess := hpWr_next_cases h
    · exact .inl ⟨v, rfl, hrun⟩
    · exact .inr (.inr haccess)
  | rd r =>
    cases h
    exact .inr (.inr (.reply _))
  | wrb i b =>
    cases h
    exact .inr (.inr (hpWrb_access i b s))
  | rdb buf i =>
    cases h
    exact .inr (.inr (.reply _))
  | reset =>
    cases h
    exact .inr (.inl ⟨rfl, rfl⟩)
  | outside => cases h

/-- The inversion of a step: nothing pending and nothing changed, or the oldest operation performed. -/
theorem step_next_cases {s t : State} (h : step s = .next t) :
    (s.pending = [] ∧ t = s) ∨ ∃ op rest, s.pending = op :: rest ∧
      issue op { s with pending := rest, reply := none } = .next t := by
  cases hp : s.pending with
  | nil =>
    rw [step_of_idle hp] at h
    cases h
    exact .inl ⟨rfl, rfl⟩
  | cons op rest =>
    rw [step_of_pending hp] at h
    exact .inr ⟨op, rest, rfl, h⟩

/-- R45: no access of the port writes a result register or buffer. -/
theorem HostAccess.frame {s t : State} (h : HostAccess s t) :
    t.crc = s.crc ∧ t.outLen = s.outLen ∧ t.mpiLen = s.mpiLen ∧ t.consumed = s.consumed ∧
      t.errArg = s.errArg ∧ statusErr t = statusErr s ∧ t.mbuf = s.mbuf ∧ t.obuf = s.obuf := by
  cases h with
  | clear => exact ⟨rfl, rfl, rfl, rfl, rfl, statusErr_clearEacc s, rfl, rfl⟩
  | _ => exact ⟨rfl, rfl, rfl, rfl, rfl, rfl, rfl, rfl⟩

theorem HostAccess.cap_eq {s t : State} (h : HostAccess s t) : t.cap = s.cap := by
  cases h <;> rfl

theorem decode_encode (i : Instr) : decode (encode i) = .ok i := by
  cases i
  exacts [decode_crcInit, decode_crcUpdate, decode_crcGen, decode_crcOut, decode_bitlen,
    decode_mpiLoad, decode_mpiDecode, decode_mpiEncode, decode_mpiWlen, decode_mpiRaw,
    decode_beEnc2, decode_beEnc3, decode_beEnc4, decode_beDec2, decode_beDec3, decode_beDec4]

/-- The inversion of a command word: a command's meaning, or ILLEGAL for a word that is none (R85). -/
theorem runCommand_next_cases {w : Word} {s t : State} (h : runCommand w s = .next t) :
    (∃ i, exec i s = .next t) ∨ ((∀ i, w ≠ encode i) ∧ t = raise .illegal w s) := by
  cases hd : decode w with
  | ok i => exact .inl ⟨i, by rwa [runCommand_of_decode hd] at h⟩
  | error e =>
    refine .inr ⟨fun i hi => ?_, ?_⟩
    · rw [hi, decode_encode] at hd
      cases hd
    · rw [runCommand, hd] at h
      cases h
      rfl

/-! ### The fold keeps CRC below 2^24 (R102) -/

theorem xor_lt_two_pow_of_testBit_eq {n x y : Nat} (hx : x < 2 ^ (n + 1)) (hy : y < 2 ^ (n + 1))
    (h : x.testBit n = y.testBit n) : x ^^^ y < 2 ^ n := by
  refine Nat.lt_pow_two_of_testBit _ fun i hi => ?_
  rw [Nat.testBit_xor]
  obtain rfl | hlt := Nat.eq_or_lt_of_le hi
  · rw [h, Bool.xor_self]
  · have hpow : 2 ^ (n + 1) ≤ 2 ^ i := Nat.pow_le_pow_right (by omega) hlt
    rw [Nat.testBit_lt_two_pow (hx.trans_le hpow), Nat.testBit_lt_two_pow (hy.trans_le hpow)]
    rfl

/-- The XOR with POLY clears bit 24 where the shift has set it. -/
theorem crcStepBit_lt {c : Word} (h : c.toNat < 2 ^ 24) : (crcStepBit c).toNat < 2 ^ 24 := by
  have hshift : (c <<< 1).toNat < 2 ^ (24 + 1) := by
    rw [BitVec.toNat_shiftLeft, Nat.shiftLeft_eq]
    omega
  have hbit : c <<< 1 &&& 0x01000000#32 =
      if (c <<< 1).getLsbD 24 then 0x01000000#32 else 0#32 := BitVec.and_twoPow (c <<< 1) 24
  rw [crcStepBit, hbit]
  cases htop : (c <<< 1).getLsbD 24 with
  | true =>
    rw [if_pos (by decide), BitVec.toNat_xor]
    exact xor_lt_two_pow_of_testBit_eq hshift (by decide) (htop.trans (by decide))
  | false =>
    rw [if_neg (by decide), ← Nat.xor_zero (c <<< 1).toNat]
    exact xor_lt_two_pow_of_testBit_eq hshift (by decide) (htop.trans (by decide))

theorem crcStepByte_lt {c : Word} (h : c.toNat < 2 ^ 24) (b : Byte) :
    (crcStepByte c b).toNat < 2 ^ 24 := by
  have hb : (b.setWidth 32 <<< 16).toNat < 2 ^ 24 := by
    rw [BitVec.toNat_shiftLeft, BitVec.toNat_setWidth, Nat.shiftLeft_eq]
    omega
  have hin : (c ^^^ b.setWidth 32 <<< 16).toNat < 2 ^ 24 := by
    rw [BitVec.toNat_xor]
    exact Nat.xor_lt_two_pow h hb
  unfold crcStepByte
  iterate 8 apply crcStepBit_lt
  exact hin

theorem crc24Fold_lt {c : Word} (h : c.toNat < 2 ^ 24) (s : List Byte) :
    (crc24Fold c s).toNat < 2 ^ 24 := by
  induction s generalizing c with
  | nil => exact h
  | cons b s ih => exact ih (crcStepByte_lt h b)

theorem and_crcMask_lt (c : Word) : (c &&& 0x00FFFFFF#32).toNat < 2 ^ 24 := by
  rw [BitVec.toNat_and]
  exact Nat.lt_of_le_of_lt Nat.and_le_right (by decide)

/-! ### The sizes and ranges over each update of the state (R35) -/

theorem toNat_ofNat_le (n : Nat) : (BitVec.ofNat 32 n).toNat ≤ n := by
  rw [BitVec.toNat_ofNat]
  exact Nat.mod_le _ _

theorem statusErr_resetAt (n : Word) : statusErr (State.resetAt n) = 0 := by
  simp [statusErr, State.resetAt]

theorem statusEacc_resetAt (n : Word) : statusEacc (State.resetAt n) = false := by
  simp [statusEacc, State.resetAt]

theorem stateInv_resetAt {n : Word} (h : capacityWellFormed n.toNat = true) :
    StateInv (State.resetAt n) where
  capacity := h
  cmdZero := rfl
  inLenLe := Nat.zero_le _
  mpiLenLe := Nat.zero_le _
  outLenLe := Nat.zero_le _
  consumedLe := Nat.zero_le _
  crcLt := (by decide : crcInitValue.toNat < 2 ^ 24)
  errLe := (statusErr_resetAt n).le.trans (Nat.zero_le 3)
  reservedZero := (by decide : 0#32 &&& ~~~(errMask ||| eaccMask) = 0#32)
  ibufWf := rfl
  mbufWf := rfl
  obufWf := rfl
  ibufWithin := rfl
  mbufWithin := rfl
  obufWithin := rfl

namespace StateInv

variable {s : State}

theorem hostSide (h : StateInv s) (ops : List HostOp) (r : Option Reply) :
    StateInv { s with pending := ops, reply := r } := { h with }

theorem ok (h : StateInv s) : StateInv (ok s) :=
  { h with
    errLe := (statusErr_ok s).le.trans (Nat.zero_le 3)
    reservedZero := reservedZero_ok h.reservedZero }

theorem raise (h : StateInv s) {k : ErrKind} (hk : (errCode k).toNat ≤ 3) (arg : Word) :
    StateInv (raise k arg s) :=
  { h with
    errLe := (statusErr_raise k arg s).le.trans hk
    reservedZero := reservedZero_raise k arg h.reservedZero }

theorem clearEacc (h : StateInv s) : StateInv (clearEacc s) :=
  { h with
    errLe := (statusErr_clearEacc s).le.trans h.errLe
    reservedZero := reservedZero_clearEacc h.reservedZero }

theorem putVal (h : StateInv s) (v : Nat) : StateInv (putVal v s) := { h with }

theorem putCrc (h : StateInv s) {c : Word} (hc : c.toNat < 2 ^ 24) : StateInv (putCrc c s) :=
  { h with crcLt := hc }

theorem putConsumed (h : StateInv s) {n : Nat} (hn : n ≤ s.cap.toNat) :
    StateInv (putConsumed n s) :=
  { h with consumedLe := (toNat_ofNat_le n).trans hn }

theorem putOutput (h : StateInv s) {bs : List Byte} (hl : bs.length ≤ s.cap.toNat + 2) :
    StateInv (putOutput bs s) :=
  { h with
    outLenLe := (toNat_ofNat_le _).trans hl
    obufWf := Memory.wf_writeBytes h.obufWf 0 bs
    obufWithin := Memory.within_writeBytes h.obufWithin (by omega) }

theorem putMpint (h : StateInv s) {bs : List Byte} (hl : bs.length ≤ s.cap.toNat) :
    StateInv (putMpint bs s) :=
  { h with
    mpiLenLe := (toNat_ofNat_le _).trans hl
    mbufWf := Memory.wf_writeBytes h.mbufWf 0 bs
    mbufWithin := Memory.within_writeBytes h.mbufWithin (by omega) }

theorem hostAccess {t : State} (h : StateInv s) (ha : HostAccess s t) : StateInv t := by
  cases ha with
  | none => exact h
  | reply r => exact h.hostSide s.pending r
  | clear => exact h.clearEacc
  | val v => exact { h with }
  | inLen v le => exact { h with inLenLe := le }
  | byte i b lt =>
    exact { h with
      ibufWf := Memory.wf_write h.ibufWf i b
      ibufWithin := Memory.within_write h.ibufWithin lt b }

theorem bitLengthOf_mpint_le (h : StateInv s) : bitLengthOf (mpint s) ≤ 8 * s.cap.toNat := by
  have hbits := bitLengthOf_le (mpint s)
  have hlen := h.mpiLenLe
  rw [length_mpint] at hbits
  omega

end StateInv

/-! ### The report of an error (R23, R171) -/

/-- What R23 and R171 say of the argument of each kind that a command word can raise in s. -/
def ReportsTruly (k : ErrKind) (arg : Word) (s : State) : Prop :=
  match k with
  | .tooShort => arg.toNat ≤ s.cap.toNat
  | .illegal => ∀ i : Instr, arg ≠ encode i
  | .lengthOverflow => 65535 < arg.toNat ∧ arg.toNat ≤ 8 * s.cap.toNat
  | .none | .encoding | .range => False

theorem ReportsTruly.errCode_le {k : ErrKind} {arg : Word} {s : State} (h : ReportsTruly k arg s) :
    (errCode k).toNat ≤ 3 := by
  cases k with
  | none | encoding | range => exact h.elim
  | tooShort | illegal | lengthOverflow => decide

theorem commandFailure_reportsTruly {i : Instr} {s : State} {k : ErrKind} {arg : Word}
    (hs : StateInv s) (h : commandFailure i s = some (k, arg)) : ReportsTruly k arg s := by
  have short {c : Prop} [Decidable c]
      (hc : (if c then some (ErrKind.tooShort, s.inLen) else none) = some (k, arg)) :
      ReportsTruly k arg s := by
    obtain ⟨-, hc⟩ := Option.ite_none_right_eq_some.1 hc
    cases hc
    exact hs.inLenLe
  cases i with
  | mpiDecode | beDec2 | beDec3 | beDec4 => exact short h
  | mpiEncode =>
    obtain ⟨hlong, hc⟩ := Option.ite_none_right_eq_some.1 h
    cases hc
    have hle := hs.bitLengthOf_mpint_le
    rw [ReportsTruly, toNat_ofNat_of_le hs hle]
    exact ⟨hlong, hle⟩
  | _ => cases h

theorem trueReport_ok (s : State) : TrueReport (ok s) where
  success _ := rfl
  tooShort h := by simp [statusErr_ok] at h
  illegal h := by simp [statusErr_ok] at h
  overflow h := by simp [statusErr_ok] at h

theorem trueReport_raise {k : ErrKind} {arg : Word} {s : State} (h : ReportsTruly k arg s) :
    TrueReport (raise k arg s) := by
  have other {n : Nat} {p : Prop} (hn : (errCode k).toNat ≠ n)
      (herr : statusErr (raise k arg s) = n) : p :=
    absurd ((statusErr_raise k arg s).symm.trans herr) hn
  cases k with
  | none | encoding | range => exact h.elim
  | tooShort => exact ⟨other (by decide), fun _ => h, other (by decide), other (by decide)⟩
  | illegal => exact ⟨other (by decide), other (by decide), fun _ => h, other (by decide)⟩
  | lengthOverflow => exact ⟨other (by decide), other (by decide), other (by decide), fun _ => h⟩

/-- A true report stays true where neither the report nor N changes. -/
theorem TrueReport.congr {s t : State} (h : TrueReport s) (herr : statusErr t = statusErr s)
    (harg : t.errArg = s.errArg) (hcap : t.cap = s.cap) : TrueReport t := by
  constructor <;> rw [herr, harg]
  · exact h.success
  · rw [hcap]
    exact h.tooShort
  · exact h.illegal
  · rw [hcap]
    exact h.overflow

theorem trueReport_resetAt (n : Word) : TrueReport (State.resetAt n) :=
  (trueReport_ok (State.resetAt n)).congr
    ((statusErr_resetAt n).trans (statusErr_ok (State.resetAt n)).symm) rfl rfl

/-! ### Both invariants over every step -/

theorem length_stripLZ_window_le (s : State) : (stripLZ (window s)).length ≤ s.inLen.toNat :=
  (length_stripLZ_le (window s)).trans (length_window s).le

/-- A successful MPI_DECODE finds the declared bytes inside the window (R125). -/
theorem two_add_declaredByteLen_le {s : State} (hf : commandFailure .mpiDecode s = none) :
    2 + declaredByteLen s ≤ s.inLen.toNat := by
  have hfits := mt (ite_eq_right_iff.1 hf) (Option.some_ne_none _)
  omega

/-- Each command writes only results that fit: an output of at most N + 2 bytes, an MPInt of at most N,
a CRC below 2^24. -/
theorem stateInv_commandEffect {i : Instr} {s : State} (h : StateInv s)
    (hf : commandFailure i s = none) : StateInv (commandEffect i s) := by
  have hcap := h.four_le_cap
  have hin := h.inLenLe
  have hmpi := h.mpiLenLe
  cases i with
  | crcInit => exact h.putCrc (by decide)
  | crcUpdate => exact h.putCrc (crc24Fold_lt h.crcLt _)
  | crcGen => exact (h.putCrc (and_crcMask_lt _)).putOutput (by rw [length_be, putCrc_cap]; omega)
  | crcOut | beEnc2 | beEnc3 | beEnc4 => exact h.putOutput (by rw [length_be]; omega)
  | mpiEncode =>
    exact h.putOutput (by rw [List.length_append, length_be, length_mpint]; omega)
  | mpiRaw => exact h.putOutput (by rw [length_mpint]; omega)
  | mpiLoad =>
    exact h.putMpint ((length_stripLZ_window_le s).trans hin)
  | mpiDecode =>
    have hfits := two_add_declaredByteLen_le hf
    exact (h.putMpint (by rw [Memory.length_readBytes]; omega)).putConsumed
      (by rw [putMpint_cap]; omega)
  | bitlen | mpiWlen | beDec2 | beDec3 | beDec4 => exact h.putVal _

theorem stateInv_exec {i : Instr} {s t : State} (h : StateInv s) (he : exec i s = .next t) :
    StateInv t := by
  obtain ⟨k, arg, hf, rfl⟩ | ⟨hf, rfl⟩ := exec_next_cases he
  · exact h.raise (commandFailure_reportsTruly h hf).errCode_le arg
  · exact (stateInv_commandEffect h hf).ok

theorem stateInv_step {s t : State} (h : StateInv s) (hstep : step s = .next t) : StateInv t := by
  obtain ⟨-, rfl⟩ | ⟨op, rest, -, hop⟩ := step_next_cases hstep
  · exact h
  have hb := h.hostSide rest none
  obtain ⟨w, -, hrun⟩ | ⟨-, rfl⟩ | haccess := issue_next_cases hop
  · obtain ⟨i, he⟩ | ⟨-, rfl⟩ := runCommand_next_cases hrun
    · exact stateInv_exec hb he
    · exact hb.raise (by decide) w
  · exact (stateInv_resetAt h.capacity).hostSide rest none
  · exact hb.hostAccess haccess

theorem trueReport_exec {i : Instr} {s t : State} (h : StateInv s) (he : exec i s = .next t) :
    TrueReport t := by
  obtain ⟨k, arg, hf, rfl⟩ | ⟨-, rfl⟩ := exec_next_cases he
  · exact trueReport_raise (commandFailure_reportsTruly h hf)
  · exact trueReport_ok _

theorem trueReport_step {s t : State} (h : StateInv s) (hr : TrueReport s)
    (hstep : step s = .next t) : TrueReport t := by
  obtain ⟨-, rfl⟩ | ⟨op, rest, -, hop⟩ := step_next_cases hstep
  · exact hr
  obtain ⟨w, -, hrun⟩ | ⟨-, rfl⟩ | haccess := issue_next_cases hop
  · obtain ⟨i, he⟩ | ⟨hw, rfl⟩ := runCommand_next_cases hrun
    · exact trueReport_exec (h.hostSide rest none) he
    · exact trueReport_raise hw
  · exact (trueReport_resetAt s.cap).congr rfl rfl rfl
  · obtain ⟨-, -, -, -, harg, herr, -, -⟩ := haccess.frame
    exact hr.congr herr harg haccess.cap_eq

/-- Settles O3: every update of the state keeps `StateInv`, by the inversion of the step. -/
theorem sizesAndRangesHoldAtEveryStepBoundary :
    Obligations.SizesAndRangesHoldAtEveryStepBoundary := by
  unfold Obligations.SizesAndRangesHoldAtEveryStepBoundary
  exact ⟨fun _ => stateInv_resetAt, fun _ _ => stateInv_step⟩

/-- Settles O4: a command or an illegal word leaves a true report of its own, a reset a clear one, and
the accesses of the port leave report and N alone. -/
theorem everyStepKeepsTheErrorReportTrue : Obligations.EveryStepKeepsTheErrorReportTrue := by
  unfold Obligations.EveryStepKeepsTheErrorReportTrue
  exact fun _ _ => trueReport_step

/-- Settles O2: the reset state has every length and the report at 0, and INIT is below 2^24. -/
theorem resetMeetsTheInvariants : Obligations.ResetMeetsTheInvariants := by
  unfold Obligations.ResetMeetsTheInvariants
  exact ⟨stateInv_resetAt (by decide), trueReport_resetAt _,
    fun n hn => ⟨stateInv_resetAt hn, trueReport_resetAt n⟩⟩

/-! ### What a command's results depend on (R27, R32, R120) -/

/-- Bytes of IBUF inside the window are a slice of it. -/
theorem readBytes_ibuf_of_le {s : State} {a n : Nat} (h : a + n ≤ s.inLen.toNat) :
    Memory.readBytes s.ibuf a n = ((window s).drop a).take n := by
  obtain ⟨k, hk⟩ := Nat.exists_eq_add_of_le h
  rw [window, hk, Nat.add_assoc, Memory.readBytes_add, Memory.readBytes_add, Nat.zero_add,
    List.drop_left' (Memory.length_readBytes ..), List.take_left' (Memory.length_readBytes ..)]

/-- An output that fits is the same whatever OBUF held before. -/
theorem output_putOutput_congr {s u u' : State} {bs : List Byte} (hs : StateInv s)
    (hu : Memory.wf u.obuf = true) (hu' : Memory.wf u'.obuf = true)
    (hl : bs.length ≤ s.cap.toNat + 2) : output (putOutput bs u) = output (putOutput bs u') := by
  have hl32 : bs.length < 2 ^ 32 := by
    have := hs.cap_le
    omega
  rw [output_putOutput hu hl32, output_putOutput hu' hl32]

namespace AgreeOnOperands

variable {s s' : State}

/-- Agreement over an update that leaves the operands and changes what it changes alike whatever the
buffers hold. -/
theorem map {f : State → State} (h : AgreeOnOperands s s')
    (hbuf : ∀ (u : State) (ib mb ob : Memory), ∃ ib' mb' ob',
      f { u with ibuf := ib, mbuf := mb, obuf := ob } =
        { f u with ibuf := ib', mbuf := mb', obuf := ob' })
    (hwin : ∀ u, window (f u) = window u) (hmpi : ∀ u, mpint (f u) = mpint u) :
    AgreeOnOperands (f s) (f s') := by
  obtain ⟨hs, hw, hm⟩ := h
  refine ⟨?_, by rw [hwin, hwin, hw], by rw [hmpi, hmpi, hm]⟩
  obtain ⟨ib', mb', ob', hf⟩ := hbuf s s'.ibuf s'.mbuf s'.obuf
  rw [← hs] at hf
  rw [hf]

theorem ok (h : AgreeOnOperands s s') : AgreeOnOperands (ok s) (ok s') :=
  h.map (fun _ _ _ _ => ⟨_, _, _, rfl⟩) window_ok mpint_ok

theorem raise (h : AgreeOnOperands s s') (k : ErrKind) (arg : Word) :
    AgreeOnOperands (raise k arg s) (raise k arg s') :=
  h.map (fun _ _ _ _ => ⟨_, _, _, rfl⟩) (window_raise · k arg) (mpint_raise · k arg)

theorem putVal (h : AgreeOnOperands s s') (v : Nat) : AgreeOnOperands (putVal v s) (putVal v s') :=
  h.map (fun _ _ _ _ => ⟨_, _, _, rfl⟩) (window_putVal · v) (mpint_putVal · v)

theorem putCrc (h : AgreeOnOperands s s') (c : Word) : AgreeOnOperands (putCrc c s) (putCrc c s') :=
  h.map (fun _ _ _ _ => ⟨_, _, _, rfl⟩) (window_putCrc · c) (mpint_putCrc · c)

theorem putConsumed (h : AgreeOnOperands s s') (n : Nat) :
    AgreeOnOperands (putConsumed n s) (putConsumed n s') :=
  h.map (fun _ _ _ _ => ⟨_, _, _, rfl⟩) (window_putConsumed · n) (mpint_putConsumed · n)

theorem putOutput (h : AgreeOnOperands s s') (bs : List Byte) :
    AgreeOnOperands (putOutput bs s) (putOutput bs s') :=
  h.map (fun _ _ _ _ => ⟨_, _, _, rfl⟩) (window_putOutput · bs) (mpint_putOutput · bs)

/-- A new MPInt takes the place of the old one on both sides. -/
theorem putMpint (h : AgreeOnOperands s s') (hs : StateInv s) (hs' : StateInv s') {bs : List Byte}
    (hl : bs.length ≤ s.cap.toNat) : AgreeOnOperands (putMpint bs s) (putMpint bs s') := by
  have hl32 : bs.length < 2 ^ 32 := by
    have := hs.cap_le
    omega
  obtain ⟨heq, hw, -⟩ := h
  refine ⟨?_, hw, (mpint_putMpint hs'.mbufWf hl32).trans (mpint_putMpint hs.mbufWf hl32).symm⟩
  obtain ⟨ib, mb, ob, rfl⟩ : ∃ ib mb ob, s' = { s with ibuf := ib, mbuf := mb, obuf := ob } :=
    ⟨_, _, _, heq⟩
  rfl

theorem inLen_eq (h : AgreeOnOperands s s') : s'.inLen = s.inLen := by rw [h.1]

theorem val_eq (h : AgreeOnOperands s s') : s'.val = s.val := by rw [h.1]

theorem crc_eq (h : AgreeOnOperands s s') : s'.crc = s.crc := by rw [h.1]

theorem window_eq (h : AgreeOnOperands s s') : window s' = window s := h.2.1

theorem mpint_eq (h : AgreeOnOperands s s') : mpint s' = mpint s := h.2.2

theorem readBytes_ibuf_eq (h : AgreeOnOperands s s') {a n : Nat} (hn : a + n ≤ s.inLen.toNat) :
    Memory.readBytes s'.ibuf a n = Memory.readBytes s.ibuf a n := by
  rw [readBytes_ibuf_of_le hn, readBytes_ibuf_of_le (h.inLen_eq ▸ hn), h.window_eq]

theorem declaredByteLen_eq (h : AgreeOnOperands s s') (h2 : 2 ≤ s.inLen.toNat) :
    declaredByteLen s' = declaredByteLen s := by
  rw [declaredByteLen, declaredByteLen, h.readBytes_ibuf_eq (by omega)]

/-- MPI_DECODE reads its length field only from a window of two bytes or more. -/
theorem commandFailure_eq (h : AgreeOnOperands s s') (i : Instr) :
    commandFailure i s' = commandFailure i s := by
  cases i with
  | mpiDecode =>
    by_cases h2 : s.inLen.toNat < 2
    · simp [commandFailure, h.inLen_eq, h2]
    · simp only [commandFailure, h.inLen_eq, h.declaredByteLen_eq (Nat.not_lt.1 h2)]
  | mpiEncode => simp only [commandFailure, h.mpint_eq]
  | beDec2 | beDec3 | beDec4 => simp only [commandFailure, h.inLen_eq]
  | _ => rfl

theorem commandEffect_agree (h : AgreeOnOperands s s') (hs : StateInv s) (hs' : StateInv s')
    {i : Instr} (hf : commandFailure i s = none) :
    AgreeOnOperands (commandEffect i s) (commandEffect i s') := by
  have hin := hs.inLenLe
  cases i with
  | crcInit => exact h.putCrc _
  | crcUpdate =>
    simp only [commandEffect, h.crc_eq, h.window_eq]
    exact h.putCrc _
  | crcGen =>
    simp only [commandEffect, h.window_eq]
    exact (h.putCrc _).putOutput _
  | crcOut =>
    simp only [commandEffect, h.crc_eq]
    exact h.putOutput _
  | bitlen =>
    simp only [commandEffect, h.window_eq]
    exact h.putVal _
  | mpiLoad =>
    simp only [commandEffect, h.window_eq]
    exact h.putMpint hs hs' ((length_stripLZ_window_le s).trans hin)
  | mpiDecode =>
    have hfits := two_add_declaredByteLen_le hf
    simp only [commandEffect, h.declaredByteLen_eq (by omega), h.readBytes_ibuf_eq hfits]
    exact (h.putMpint hs hs' (by rw [Memory.length_readBytes]; omega)).putConsumed _
  | mpiEncode | mpiRaw =>
    simp only [commandEffect, h.mpint_eq]
    exact h.putOutput _
  | mpiWlen =>
    simp only [commandEffect, h.mpint_eq]
    exact h.putVal _
  | beEnc2 | beEnc3 | beEnc4 =>
    simp only [commandEffect, h.val_eq]
    exact h.putOutput _
  | beDec2 | beDec3 | beDec4 =>
    have hlong := mt (ite_eq_right_iff.1 hf) (Option.some_ne_none _)
    rw [commandEffect, commandEffect, h.readBytes_ibuf_eq (by omega)]
    exact h.putVal _

/-- Each output is made of the operands alone, and OBUF is written from index 0 on. -/
theorem output_commandEffect (h : AgreeOnOperands s s') (hs : StateInv s) (hs' : StateInv s')
    {i : Instr} (hi : writesOutput i = true) :
    output (commandEffect i s) = output (commandEffect i s') := by
  have hcap := hs.four_le_cap
  have hmpi := hs.mpiLenLe
  cases i with
  | crcGen =>
    simp only [commandEffect, h.window_eq]
    exact output_putOutput_congr hs hs.obufWf hs'.obufWf (by rw [length_be]; omega)
  | crcOut =>
    simp only [commandEffect, h.crc_eq]
    exact output_putOutput_congr hs hs.obufWf hs'.obufWf (by rw [length_be]; omega)
  | mpiEncode =>
    simp only [commandEffect, h.mpint_eq]
    exact output_putOutput_congr hs hs.obufWf hs'.obufWf
      (by rw [List.length_append, length_be, length_mpint]; omega)
  | mpiRaw =>
    simp only [commandEffect, h.mpint_eq]
    exact output_putOutput_congr hs hs.obufWf hs'.obufWf (by rw [length_mpint]; omega)
  | beEnc2 | beEnc3 | beEnc4 =>
    simp only [commandEffect, h.val_eq]
    exact output_putOutput_congr hs hs.obufWf hs'.obufWf (by rw [length_be]; omega)
  | _ => cases hi

end AgreeOnOperands

/-- No command raises a kind whose code is that of success. -/
theorem ReportsTruly.errCode_ne_zero {k : ErrKind} {arg : Word} {s : State}
    (h : ReportsTruly k arg s) : (errCode k).toNat ≠ 0 := by
  cases k with
  | none | encoding | range => exact h.elim
  | tooShort | illegal | lengthOverflow => decide

/-- Settles O33: agreeing states raise the same error, or write results made of the operands alone. -/
theorem resultsDependOnlyOnTheOperands : Obligations.ResultsDependOnlyOnTheOperands := by
  unfold Obligations.ResultsDependOnlyOnTheOperands
  intro i s s' t t' hs hs' h he he'
  have hsame := h.commandFailure_eq i
  obtain ⟨k, arg, hf, rfl⟩ | ⟨hf, rfl⟩ := exec_next_cases he
  · rw [exec_of_failure (hsame.trans hf)] at he'
    cases he'
    refine ⟨h.raise k arg, fun _ h0 => ?_⟩
    rw [statusErr_raise] at h0
    exact absurd h0 (commandFailure_reportsTruly hs hf).errCode_ne_zero
  · rw [exec_of_success (hsame.trans hf)] at he'
    cases he'
    refine ⟨(h.commandEffect_agree hs hs' hf).ok, fun hi _ => ?_⟩
    rw [output_ok, output_ok, h.output_commandEffect hs hs' hi]

/-! ### The operations of the port (R36, R40 to R45) -/

/-- Settles O36: read after write in the canonical IBUF, or no write at an index past it. -/
theorem hostByteWriteSetsOneByteOfIbuf : Obligations.HostByteWriteSetsOneByteOfIbuf := by
  unfold Obligations.HostByteWriteSetsOneByteOfIbuf
  intro s i b rest hwf hp
  exact ⟨_, step_of_pending hp, hpWrb_frame i b _,
    read_hpWrb (s := { s with pending := rest, reply := none }) hwf i b⟩

/-- Settles O38: what is left of the port's operations is `HostAccess`, with its frame. -/
theorem theHostCannotWriteResultsDirectly : Obligations.TheHostCannotWriteResultsDirectly := by
  unfold Obligations.TheHostCannotWriteResultsDirectly
  intro s t hstep hcmd hreset
  obtain ⟨-, rfl⟩ | ⟨op, rest, hp, hop⟩ := step_next_cases hstep
  · exact HostAccess.none.frame
  obtain ⟨w, rfl, -⟩ | ⟨rfl, -⟩ | haccess := issue_next_cases hop
  · exact absurd hp (hcmd w rest)
  · exact absurd hp (hreset rest)
  · exact haccess.frame

/-- Settles O1: the reset state is written out field by field, and HP_RESET keeps N. -/
theorem bothResetsLeaveTheResetValues : Obligations.BothResetsLeaveTheResetValues := by
  unfold Obligations.BothResetsLeaveTheResetValues
  refine ⟨⟨Config.defaultN, by decide, rfl⟩, fun n => ?_, fun s rest hp => ?_⟩
  · refine ⟨rfl, rfl, rfl, rfl, rfl, rfl, rfl, rfl, rfl, rfl, statusEacc_resetAt n,
      fun buf i => ?_⟩
    cases buf <;> exact Memory.read_nil i
  · rw [step_of_pending hp]
    rfl

/-- Settles O34: the equations of `hpWr`, one per register number. -/
theorem hostWriteFollowsTheRegisterTable : Obligations.HostWriteFollowsTheRegisterTable := by
  unfold Obligations.HostWriteFollowsTheRegisterTable
  intro s r v rest hp b
  have hstep : step s = hpWr r v b := step_of_pending hp
  rw [hstep]
  refine ⟨hpWr_cmd v b, fun h hv => ?_, fun h hv => ?_, hpWr_val v b, fun h hle => ?_,
    fun h hlt => ?_, hpWr_other v b⟩
  · rw [hpWr_status v b h, if_pos hv]
    exact ⟨clearEacc b, rfl, rfl, fun i => getLsbD_clearEacc_status b⟩
  · rw [hpWr_status v b h, hv]
    rfl
  · rw [hpWr_inLen v b h, if_pos hle]
  · rw [hpWr_inLen v b h, if_neg (Nat.not_le.2 hlt)]

/-- Settles O35: the registers in the order of their numbers. -/
theorem hostReadReturnsTheRegister : Obligations.HostReadReturnsTheRegister := by
  unfold Obligations.HostReadReturnsTheRegister
  intro s r rest hp
  rw [step_of_pending hp, issue, hpRd_eq_getD]

/-- Settles O37: the byte of each buffer below that buffer's capacity. -/
theorem hostByteReadReturnsTheByte : Obligations.HostByteReadReturnsTheByte := by
  unfold Obligations.HostByteReadReturnsTheByte
  intro s buf i rest hp
  rw [step_of_pending hp, issue, hpRdb]
  cases buf <;> rfl

/-- Settles O45: the step issues the write, and the write of a command word runs its command. -/
theorem aStepRunsTheDecodedCommand : Obligations.AStepRunsTheDecodedCommand := by
  unfold Obligations.AStepRunsTheDecodedCommand
  intro s w i rest hp hd
  rw [step_of_pending hp, issue, hpWr_cmd _ _ rfl, runCommand_of_decode hd]

end Sys2Proof.Machine

/-! PROOFS. Repeated accesses of the port (spec 20_memory.md R66), and the column "written by commands" of
the register table (10_state.md section 2, R74). -/

namespace Sys2Proof.Machine

/-! ### The last write of a byte stands -/

/-- Below the first index that a canonical buffer may list, a write adds its byte in front. -/
theorem Memory.write_below {lo a : Nat} {m : Memory} (h : Memory.wfFrom lo m) (ha : a < lo) (b : Byte) :
    Memory.write m a b = if b = 0#8 then m else (a, b) :: m := by
  cases m with
  | nil => rfl
  | cons c m =>
    obtain ⟨i, e⟩ := c
    simp only [Memory.wfFrom, Bool.and_eq_true, decide_eq_true_eq] at h
    rw [Memory.write, if_pos (by omega)]

theorem Memory.write_writeFrom {lo : Nat} {m : Memory} (h : Memory.wfFrom lo m) (a : Nat) (b c : Byte) :
    Memory.write (Memory.write m a b) a c = Memory.write m a c := by
  induction m generalizing lo with
  | nil => by_cases hb : b = 0#8 <;> simp [Memory.write, hb]
  | cons cell m ih =>
    obtain ⟨i, e⟩ := cell
    simp only [Memory.wfFrom, Bool.and_eq_true, decide_eq_true_eq] at h
    obtain ⟨-, htail⟩ := h
    obtain hlt | rfl | hgt := Nat.lt_trichotomy a i
    · by_cases hb : b = 0#8 <;> simp [Memory.write, hlt, hb]
    · have hbelow := Memory.write_below htail (Nat.lt_succ_self a) c
      by_cases hb : b = 0#8 <;> simp [Memory.write, hb, hbelow]
    · have hnlt : ¬ a < i := by omega
      have hne : a ≠ i := by omega
      simp [Memory.write, hnlt, hne, ih htail]

/-- Of two writes to one byte of a canonical buffer, the second stands alone. -/
theorem Memory.write_write {m : Memory} (h : Memory.wf m) (a : Nat) (b c : Byte) :
    Memory.write (Memory.write m a b) a c = Memory.write m a c :=
  Memory.write_writeFrom h a b c

/-! ### The port's accesses do not see the host's side (R66) -/

section hostSide

variable (s : State) (ops : List HostOp) (reply : Option Reply)

theorem hpRd_hostSide (r : Word) : hpRd r { s with pending := ops, reply := reply } = hpRd r s := rfl

theorem hpRdb_hostSide (buf : BufId) (i : Nat) :
    hpRdb buf i { s with pending := ops, reply := reply } = hpRdb buf i s := by
  cases buf <;> rfl

theorem hpWrb_hostSide (i : Nat) (b : Byte) :
    hpWrb i b { s with pending := ops, reply := reply } =
      { hpWrb i b s with pending := ops, reply := reply } := by
  by_cases h : i < s.cap.toNat <;> simp [hpWrb, h]

end hostSide

theorem hpWrb_hpWrb {s : State} (h : Memory.wf s.ibuf) (i : Nat) (b : Byte) :
    hpWrb i b (hpWrb i b s) = hpWrb i b s := by
  by_cases hi : i < s.cap.toNat
  · simp [hpWrb, hi, Memory.write_write h]
  · rw [hpWrb_of_le (Nat.not_lt.1 hi), hpWrb_of_le (Nat.not_lt.1 hi)]

/-- R41, R43: of the state, a read sets the reply alone. -/
theorem issue_read_frame {op : HostOp} {s t : State}
    (hread : (∃ r, op = .rd r) ∨ ∃ buf i, op = .rdb buf i) (h : issue op s = .next t) :
    t = { s with reply := t.reply } := by
  obtain ⟨r, rfl⟩ | ⟨buf, i, rfl⟩ := hread <;> cases h <;> rfl

/-- Settles O39: a read's value does not depend on the host's side, a write of VAL or IN_LEN stores the
value already there, and the last write of a byte stands. -/
theorem readsAndPlainWritesAreIdempotent : Obligations.ReadsAndPlainWritesAreIdempotent := by
  unfold Obligations.ReadsAndPlainWritesAreIdempotent
  intro s t op rest hs hop hp hstep
  rw [step_of_pending hp] at hstep
  refine ⟨?_, fun hread => issue_read_frame hread hstep⟩
  rw [step_of_pending (issue_pending hstep)]
  obtain ⟨r, rfl⟩ | ⟨buf, i, rfl⟩ | ⟨v, rfl⟩ | ⟨v, rfl⟩ | ⟨i, b, rfl⟩ := hop
  · cases hstep
    simp only [issue, hpRd_hostSide]
  · cases hstep
    simp only [issue, hpRdb_hostSide]
  · cases hstep
    rfl
  · rw [issue, hpWr_inLen _ _ rfl] at hstep ⊢
    cases hstep
    by_cases hv : v.toNat ≤ s.cap.toNat <;> simp [hv]
  · cases hstep
    simp only [issue, hpWrb_hostSide, hpWrb_hpWrb hs.ibufWf]

/-! ### What each command writes (R24 to R34, R74) -/

section writes

variable {i : Instr} (s : State)

theorem commandEffect_crc (h : writesCrc i = false) : (commandEffect i s).crc = s.crc := by
  cases i with
  | crcInit | crcUpdate | crcGen => cases h
  | _ => rfl

theorem commandEffect_val (h : writesVal i = false) : (commandEffect i s).val = s.val := by
  cases i with
  | beDec2 | beDec3 | beDec4 | bitlen | mpiWlen => cases h
  | _ => rfl

theorem commandEffect_output (h : writesOutput i = false) :
    (commandEffect i s).outLen = s.outLen ∧ (commandEffect i s).obuf = s.obuf := by
  cases i with
  | crcGen | crcOut | beEnc2 | beEnc3 | beEnc4 | mpiEncode | mpiRaw => cases h
  | _ => exact ⟨rfl, rfl⟩

theorem commandEffect_mpint (h : writesMpint i = false) :
    (commandEffect i s).mpiLen = s.mpiLen ∧ (commandEffect i s).mbuf = s.mbuf := by
  cases i with
  | mpiLoad | mpiDecode => cases h
  | _ => exact ⟨rfl, rfl⟩

theorem commandEffect_consumed (h : writesConsumed i = false) :
    (commandEffect i s).consumed = s.consumed := by
  cases i with
  | mpiDecode => cases h
  | _ => rfl

end writes

/-- Settles O32: an error writes the report alone, and a success the command's effect, which keeps every
register and buffer that the table does not list for it. -/
theorem commandsWriteOnlyWhatTheTableLists : Obligations.CommandsWriteOnlyWhatTheTableLists := by
  unfold Obligations.CommandsWriteOnlyWhatTheTableLists
  intro i s t he
  obtain ⟨k, arg, -, rfl⟩ | ⟨-, rfl⟩ := exec_next_cases he
  · exact ⟨rfl, rfl, rfl, rfl, rfl, rfl, fun _ => rfl, fun _ => rfl, fun _ => ⟨rfl, rfl⟩,
      fun _ => ⟨rfl, rfl⟩, fun _ => rfl⟩
  · obtain ⟨-, -, hibuf, hinLen, hcmd, hcap, hpending, hreply⟩ := commandEffect_frame i s
    exact ⟨hcmd, hcap, hibuf, hinLen, hpending, hreply, commandEffect_crc s, commandEffect_val s,
      commandEffect_output s, commandEffect_mpint s, commandEffect_consumed s⟩

end Sys2Proof.Machine

/-! PROOFS. The command words (spec 30_encoding.md R84, R85), and the run of the pseudo-instructions (R89). -/

namespace Sys2Proof.Machine

/-! ### The decoder inverts the encoder (R81, R84) -/

theorem toNat_encode_of_decodeCrcGroup {fn : Nat} {i : Instr} (h : decodeCrcGroup fn = .ok i) :
    (encode i).toNat = fn := by
  unfold decodeCrcGroup at h
  split at h <;> cases h <;> rfl

theorem toNat_encode_of_decodeBeGroup {d width : Nat} {i : Instr} (h : decodeBeGroup d width = .ok i) :
    (encode i).toNat = 16 + 8 * d + width := by
  unfold decodeBeGroup at h
  split at h <;> cases h <;> rfl

theorem toNat_encode_of_decodeMpiGroup {fn : Nat} {i : Instr} (h : decodeMpiGroup fn = .ok i) :
    (encode i).toNat = 32 + fn := by
  unfold decodeMpiGroup at h
  split at h <;> cases h <;> rfl

/-- The fields of R81 make up a word whose reserved bits are 0. -/
theorem toNat_eq_of_reserved_zero {w : Word} (h : wordField w 31 8 = 0) :
    w.toNat = 16 * wordField w 7 4 + wordField w 3 0 := by
  have hw := w.isLt
  simp only [wordField] at h ⊢
  omega

theorem wordField_functionNumber (w : Word) :
    wordField w 3 0 = 8 * wordField w 3 3 + wordField w 2 0 := by
  simp only [wordField]
  omega

/-- The fields that `decode` reads are the whole word, so the command it gives has that word. -/
theorem eq_encode_of_decode {w : Word} {i : Instr} (h : decode w = .ok i) : w = encode i := by
  apply BitVec.eq_of_toNat_eq
  unfold decode at h
  split at h
  case isTrue => cases h
  case isFalse hreserved =>
    rw [toNat_eq_of_reserved_zero (not_not.1 hreserved)]
    split at h
    case h_1 hgroup => rw [toNat_encode_of_decodeCrcGroup h, hgroup, Nat.mul_zero, Nat.zero_add]
    case h_2 hgroup =>
      rw [toNat_encode_of_decodeBeGroup h, hgroup, wordField_functionNumber, Nat.add_assoc]
    case h_3 hgroup => rw [toNat_encode_of_decodeMpiGroup h, hgroup]
    case h_4 => cases h

theorem decode_eq_ok_iff {w : Word} {i : Instr} : decode w = .ok i ↔ w = encode i :=
  ⟨eq_encode_of_decode, fun h => h ▸ decode_encode i⟩

/-- R85: a word that is no command's raises ILLEGAL with itself. -/
theorem runCommand_of_not_encode {w : Word} (h : ∀ i : Instr, w ≠ encode i) (s : State) :
    runCommand w s = .next (raise .illegal w s) := by
  cases hd : decode w with
  | ok i => exact absurd (eq_encode_of_decode hd) (h i)
  | error e => rw [runCommand, hd]

/-! ### The opcode map (R84) -/

/-- The commands in the order of the opcode map. -/
def allCommands : List Instr :=
  [.crcInit, .crcUpdate, .crcGen, .crcOut, .bitlen, .mpiLoad, .mpiDecode, .mpiEncode, .mpiWlen, .mpiRaw,
    .beEnc2, .beEnc3, .beEnc4, .beDec2, .beDec3, .beDec4]

theorem mem_allCommands (i : Instr) : i ∈ allCommands := by
  cases i <;> decide

theorem mem_map_encode_iff {w : Word} {i : Instr} :
    (i, w) ∈ allCommands.map (fun j => (j, encode j)) ↔ w = encode i := by
  simp [mem_allCommands, eq_comm]

/-- The words of the opcode map as numbers, group by group. -/
theorem exists_eq_encode_iff {w : Word} :
    (∃ i : Instr, w = encode i) ↔
      (1 ≤ w.toNat ∧ w.toNat ≤ 4) ∨ (0x12 ≤ w.toNat ∧ w.toNat ≤ 0x14) ∨
        (0x1A ≤ w.toNat ∧ w.toNat ≤ 0x1C) ∨ (0x20 ≤ w.toNat ∧ w.toNat ≤ 0x25) := by
  have hmem : (∃ i : Instr, w = encode i) ↔ w.toNat ∈ allCommands.map (fun i => (encode i).toNat) := by
    simp [mem_allCommands, BitVec.toNat_inj, eq_comm]
  have hwords : allCommands.map (fun i => (encode i).toNat) =
      [1, 2, 3, 4, 0x20, 0x21, 0x22, 0x23, 0x24, 0x25, 0x12, 0x13, 0x14, 0x1A, 0x1B, 0x1C] := rfl
  rw [hmem, hwords]
  simp only [List.mem_cons, List.not_mem_nil, or_false]
  omega

/-- Settles O43: the map is the list of the commands with their words, and `decode` inverts `encode`. -/
theorem aWordDecodesExactlyWhenTheMapNamesIt : Obligations.AWordDecodesExactlyWhenTheMapNamesIt := by
  unfold Obligations.AWordDecodesExactlyWhenTheMapNamesIt
  exact fun w i => ⟨decode_eq_ok_iff.trans mem_map_encode_iff.symm, decode_eq_ok_iff⟩

/-- Settles O44: the classes of R85 are the numbers that the map leaves out, and such a word raises. -/
theorem everyOtherWordIsIllegal : Obligations.EveryOtherWordIsIllegal := by
  unfold Obligations.EveryOtherWordIsIllegal
  refine ⟨fun i j hij => ?_, fun w => ?_, fun s w rest hp hw => ?_⟩
  · have hdecode : decode (encode i) = .ok j := decode_eq_ok_iff.2 hij
    rw [decode_encode] at hdecode
    exact Except.ok.inj hdecode
  · rw [← not_exists, exists_eq_encode_iff]
    omega
  · rw [step_of_pending hp, issue, hpWr_cmd _ _ rfl, runCommand_of_not_encode hw]
    exact ⟨_, rfl, raised_raise .illegal w _⟩

/-- Settles O42: the decoder's lemma for each of the six words, and `decode_encode`. -/
theorem wordsOfTheOpcodeMapDecode : Obligations.WordsOfTheOpcodeMapDecode := by
  unfold Obligations.WordsOfTheOpcodeMapDecode
  exact ⟨decode_crcInit, decode_crcGen, decode_bitlen, decode_mpiDecode, decode_beEnc4, decode_beDec2,
    fun i _ => decode_encode i⟩

/-! ### The run of a pseudo-instruction (R89) -/

section run

variable (M : Host.Core)

theorem run_one (s : M.State) : M.run 1 s = M.step s := by
  simp only [Host.Core.run]
  cases M.step s <;> rfl

theorem run_succ_of_step {s t : M.State} (h : M.step s = .next t) (k : Nat) :
    M.run (k + 1) s = M.run k t := by
  rw [Host.Core.run, h]

end run

theorem wrbFrom_eq_mapIdx (a : Nat) (bs : List Byte) :
    wrbFrom a bs = bs.mapIdx fun i b => HostOp.wrb (a + i) b := by
  induction bs generalizing a with
  | nil => rfl
  | cons b bs ih =>
    simp only [wrbFrom, ih, List.mapIdx_cons, Nat.add_zero, Nat.add_assoc, Nat.add_comm 1]

/-- Byte writes that fit IBUF are one MemWrite; the run's last step is the operation after them. -/
theorem run_wrbFrom_append {s : State} {a : Nat} {bs : List Byte} {op : HostOp} {rest : List HostOp}
    (hfit : a + bs.length ≤ s.cap.toNat) (hp : s.pending = wrbFrom a bs ++ op :: rest) :
    Host.Core.run Sys2Proof.core (bs.length + 1) s =
      issue op { s with ibuf := Memory.writeBytes s.ibuf a bs, pending := rest, reply := none } := by
  induction bs generalizing s a with
  | nil => exact (run_one Sys2Proof.core s).trans (step_of_pending hp)
  | cons b bs ih =>
    rw [List.length_cons] at hfit
    have hfitTail : a + 1 + bs.length ≤ s.cap.toNat := by omega
    have hbyte : step s = .next { s with ibuf := Memory.write s.ibuf a b,
                                         pending := wrbFrom (a + 1) bs ++ op :: rest,
                                         reply := none } := by
      rw [step_of_pending hp, issue, hpWrb_hostSide, hpWrb_of_lt (by omega)]
      rfl
    exact (run_succ_of_step Sys2Proof.core hbyte _).trans (ih hfitTail rfl)

/-- LOADIN of a list that fits is one MemWrite into IBUF and one write of IN_LEN. -/
theorem run_loadin {s : State} {bs : List Byte} {rest : List HostOp}
    (hfit : bs.length ≤ s.cap.toNat) (hp : s.pending = expand (.loadin bs) ++ rest) :
    Host.Core.run Sys2Proof.core (bs.length + 1) s =
      .next { s with ibuf := Memory.writeBytes s.ibuf 0 bs, inLen := BitVec.ofNat 32 bs.length,
                     pending := rest, reply := none } := by
  have hlen : (BitVec.ofNat 32 bs.length).toNat ≤ s.cap.toNat := (toNat_ofNat_le _).trans hfit
  rw [expand, List.append_assoc] at hp
  rw [run_wrbFrom_append (by omega) hp, issue, hpWr_inLen _ _ rfl, if_pos hlen]
  rfl

/-- Settles O40: the expansions, and LOADIN's run, whose MemWrite leaves the list as the window. -/
theorem pseudoInstructionsExpandExactly : Obligations.PseudoInstructionsExpandExactly := by
  unfold Obligations.PseudoInstructionsExpandExactly
  refine ⟨fun s bs rest hs hwf hp => ?_, fun bs => ?_, fun v => rfl, rfl, rfl⟩
  · have hfit : bs.length ≤ s.cap.toNat := of_decide_eq_true hwf
    have hlen : (BitVec.ofNat 32 bs.length).toNat = bs.length := toNat_ofNat_of_le hs (by omega)
    refine ⟨_, run_loadin hfit hp, rfl, hlen, ?_, fun a ha => ?_⟩
    · rw [window, hlen]
      exact Memory.readBytes_writeBytes hs.ibufWf 0 bs
    · rw [Memory.read_writeBytes hs.ibufWf, if_neg (by omega)]
  · simp only [expand, wrbFrom_eq_mapIdx, Nat.zero_add]

end Sys2Proof.Machine

/-! PROOFS. The CRC-24 fold and the four CRC commands (spec 40_crc24.md R100 to R108). -/

namespace Sys2Proof.Machine

/-! ### The register's fold is the fold on unbounded naturals (R101) -/

theorem crcStepByte_eq_repeat (c : Word) (b : Byte) :
    crcStepByte c b = Nat.repeat crcStepBit 8 (c ^^^ b.setWidth 32 <<< 16) := rfl

/-- The shift of a byte to the top of the 24-bit value drops nothing. -/
theorem toNat_setWidth_shiftLeft (b : Byte) : (b.setWidth 32 <<< 16).toNat = b.toNat <<< 16 := by
  rw [BitVec.toNat_shiftLeft, BitVec.toNat_setWidth, Nat.shiftLeft_eq, Nat.shiftLeft_eq]
  omega

theorem xor_byte_lt {c : Nat} (h : c < 2 ^ 24) (b : Byte) : c ^^^ (b.toNat <<< 16) < 2 ^ 24 := by
  refine Nat.xor_lt_two_pow h ?_
  rw [Nat.shiftLeft_eq]
  omega

/-- Below 2^24 the register's shift drops nothing, so both repeats test and XOR the same value. -/
theorem toNat_crcStepBit {c : Word} (h : c.toNat < 2 ^ 24) :
    (crcStepBit c).toNat = crcBitNat c.toNat := by
  have hshift : (c <<< 1).toNat = c.toNat <<< 1 := by
    rw [BitVec.toNat_shiftLeft, Nat.shiftLeft_eq]
    omega
  have htest : c <<< 1 &&& 0x01000000#32 ≠ 0#32 ↔ c.toNat <<< 1 &&& 0x1000000 ≠ 0 := by
    rw [BitVec.toNat_ne, BitVec.toNat_and, hshift]
    rfl
  unfold crcStepBit crcBitNat
  by_cases hbit : c.toNat <<< 1 &&& 0x1000000 ≠ 0
  · rw [if_pos hbit, if_pos (htest.2 hbit), BitVec.toNat_xor, hshift]
    rfl
  · rw [if_neg hbit, if_neg (mt htest.1 hbit), hshift]

theorem toNat_repeat_crcStepBit {c : Word} (h : c.toNat < 2 ^ 24) (n : Nat) :
    (Nat.repeat crcStepBit n c).toNat = Nat.repeat crcBitNat n c.toNat ∧
      (Nat.repeat crcStepBit n c).toNat < 2 ^ 24 := by
  induction n with
  | zero => exact ⟨rfl, h⟩
  | succ n ih =>
    obtain ⟨heq, hlt⟩ := ih
    exact ⟨(toNat_crcStepBit hlt).trans (congrArg crcBitNat heq), crcStepBit_lt hlt⟩

theorem toNat_crcStepByte {c : Word} (h : c.toNat < 2 ^ 24) (b : Byte) :
    (crcStepByte c b).toNat = crcByteNat c.toNat b := by
  have hin : (c ^^^ b.setWidth 32 <<< 16).toNat = c.toNat ^^^ (b.toNat <<< 16) := by
    rw [BitVec.toNat_xor, toNat_setWidth_shiftLeft]
  have hlt : (c ^^^ b.setWidth 32 <<< 16).toNat < 2 ^ 24 := hin ▸ xor_byte_lt h b
  rw [crcStepByte_eq_repeat, (toNat_repeat_crcStepBit hlt 8).1, hin, crcByteNat]

theorem toNat_crc24Fold {c : Word} (h : c.toNat < 2 ^ 24) (s : List Byte) :
    (crc24Fold c s).toNat = crcFoldNat c.toNat s := by
  induction s generalizing c with
  | nil => rfl
  | cons b s ih => rw [crc24Fold, crcFoldNat, ih (crcStepByte_lt h b), toNat_crcStepByte h]

theorem crcInitValue_lt : crcInitValue.toNat < 2 ^ 24 := by decide

theorem crcBitNat_lt {c : Nat} (h : c < 2 ^ 24) : crcBitNat c < 2 ^ 24 := by
  have hc : (BitVec.ofNat 32 c).toNat = c := Nat.mod_eq_of_lt (h.trans (by decide))
  have hstep := crcStepBit_lt (hc.symm ▸ h)
  rwa [toNat_crcStepBit (hc.symm ▸ h), hc] at hstep

/-- The final mask keeps a value below 2^24 (R102). -/
theorem and_crcMask_of_lt {c : Word} (h : c.toNat < 2 ^ 24) : c &&& 0x00FFFFFF#32 = c := by
  apply BitVec.eq_of_toNat_eq
  rw [BitVec.toNat_and]
  exact (Nat.and_two_pow_sub_one_eq_mod _ 24).trans (Nat.mod_eq_of_lt h)

theorem and_crcMask_crc24Fold (s : List Byte) :
    crc24Fold crcInitValue s &&& 0x00FFFFFF#32 = crc24Fold crcInitValue s :=
  and_crcMask_of_lt (crc24Fold_lt crcInitValue_lt s)

/-- Settles O6: the bit step agrees below 2^24, the byte step by induction over its repeats, and the
fold by induction over the bytes. -/
theorem registerFoldIsTheUnboundedFold : Obligations.RegisterFoldIsTheUnboundedFold := by
  unfold Obligations.RegisterFoldIsTheUnboundedFold
  exact ⟨rfl, rfl, fun _ s h => toNat_crc24Fold h s⟩

/-- Settles O7: R102's argument, each step by its bound. -/
theorem foldStaysBelowBitTwentyFour : Obligations.FoldStaysBelowBitTwentyFour := by
  unfold Obligations.FoldStaysBelowBitTwentyFour
  refine ⟨fun _ b h => xor_byte_lt h b, fun c h => ⟨?_, crcBitNat_lt h⟩, fun c s h => ?_⟩
  · rw [Nat.shiftLeft_eq]
    omega
  · exact ⟨crc24Fold_lt h s, and_crcMask_of_lt (crc24Fold_lt h s)⟩

/-! ### The four commands (R100, R103 to R105) -/

/-- A command that cannot fail answers its effect with the success status. -/
theorem eq_of_exec_success {i : Instr} {s t : State} (hf : commandFailure i s = none)
    (h : exec i s = .next t) : t = ok (commandEffect i s) :=
  (Host.Outcome.next.inj ((exec_of_success hf).symm.trans h)).symm

@[simp] theorem ok_ok (s : State) : ok (ok s) = ok s := by
  simp [ok, BitVec.and_assoc]

theorem window_of_inLen_zero {s : State} (h : s.inLen = 0#32) : window s = [] := by
  rw [window, h]
  rfl

/-- An output `BE(n, v)`: the byte at index a < n is the one of weight 256^(n-1-a). -/
theorem read_putOutput_be {s : State} (hw : Memory.wf s.obuf = true) (n v a : Nat) :
    Memory.read (putOutput (be n v) s).obuf a =
      if a < n then BitVec.ofNat 8 (v / 2 ^ (8 * (n - 1 - a))) else Memory.read s.obuf a := by
  rw [read_putOutput hw, length_be]
  split
  next ha =>
    rw [List.getD_eq_getElem?_getD, getElem?_be, if_pos ha, Nat.shiftRight_eq_div_pow]
    rfl
  next => rfl

/-- Settles O8: the effect of CRC_UPDATE is the register's fold, and StateInv has CRC below 2^24. -/
theorem crcUpdateFoldsTheWindow : Obligations.CrcUpdateFoldsTheWindow := by
  unfold Obligations.CrcUpdateFoldsTheWindow
  refine ⟨decode_crcUpdate, fun s hs =>
    ⟨_, exec_of_success rfl, rfl, toNat_crc24Fold hs.crcLt _, fun hempty => ?_, succeeded_ok rfl⟩⟩
  rw [ok_crc, commandEffect, putCrc_crc, window_of_inLen_zero hempty, crc24Fold]

/-- Settles O9: CRC_GEN's effect, with the bytes of `BE(3, c)` read back from OBUF. -/
theorem crcGenWritesTheChecksumOfTheWindow : Obligations.CrcGenWritesTheChecksumOfTheWindow := by
  unfold Obligations.CrcGenWritesTheChecksumOfTheWindow
  refine ⟨decode_crcGen, fun s hw =>
    ⟨_, exec_of_success rfl, rfl, ?_, read_putOutput_be hw 3 _, fun hempty => ?_, succeeded_ok rfl⟩⟩
  · rw [ok_crc, commandEffect, putOutput_crc, putCrc_crc, BitVec.toNat_and,
      toNat_crc24Fold crcInitValue_lt]
    rfl
  · rw [ok_crc, commandEffect, putOutput_crc, putCrc_crc, and_crcMask_crc24Fold,
      window_of_inLen_zero hempty]
    rfl

/-- Settles O10: CRC_OUT's effect, with the bytes of `BE(3, c)` read back from OBUF. -/
theorem crcOutSerialisesTheAccumulator : Obligations.CrcOutSerialisesTheAccumulator := by
  unfold Obligations.CrcOutSerialisesTheAccumulator
  exact ⟨decode_crcOut, fun s hw =>
    ⟨_, exec_of_success rfl, rfl, read_putOutput_be hw 3 _, succeeded_ok rfl⟩⟩

/-- Settles O5: CRC_INIT's effect does not read the state it writes, and `ok` is idempotent. -/
theorem crcInitResetsTheAccumulator : Obligations.CrcInitResetsTheAccumulator := by
  unfold Obligations.CrcInitResetsTheAccumulator
  exact ⟨decode_crcInit, fun s => ⟨_, exec_of_success rfl, rfl, succeeded_ok rfl,
    (exec_of_success rfl).trans (congrArg Host.Outcome.next (ok_ok (putCrc crcInitValue s)))⟩⟩

/-! ### Streaming equals one-shot (R106) -/

theorem crc24Fold_append (c : Word) (s u : List Byte) :
    crc24Fold c (s ++ u) = crc24Fold (crc24Fold c s) u := by
  induction s generalizing c with
  | nil => rfl
  | cons b s ih => exact ih (crcStepByte c b)

/-- A streamed run folds the windows joined, and leaves OBUF alone. -/
theorem Streamed.crc_obuf {ws : List (List Byte)} {s t : State} (h : Streamed ws s t) :
    t.crc = crc24Fold s.crc ws.flatten ∧ t.obuf = s.obuf := by
  induction h with
  | done s => exact ⟨rfl, rfl⟩
  | @fold w ws s u v t supplied updated _ ih =>
    obtain ⟨hframe, hwindow⟩ := supplied
    have hcrc : u.crc = s.crc := by rw [hframe]
    have hobuf : u.obuf = s.obuf := by rw [hframe]
    obtain rfl := eq_of_exec_success rfl updated
    obtain ⟨hfold, hkept⟩ := ih
    refine ⟨?_, hkept.trans hobuf⟩
    rw [hfold, List.flatten_cons, crc24Fold_append, ← hcrc, ← hwindow]
    rfl

/-- Settles O11: the streamed run ends with the fold of the join in CRC, which CRC_GEN's mask keeps, and
both outputs are `BE(3)` of it. -/
theorem streamedChecksumEqualsOneShot : Obligations.StreamedChecksumEqualsOneShot := by
  unfold Obligations.StreamedChecksumEqualsOneShot
  refine ⟨crc24Fold_append, fun ws s s₁ t₁ t u g hs hinit hrun hout hu hwindow hgen => ?_⟩
  obtain rfl := eq_of_exec_success rfl hinit
  obtain rfl := eq_of_exec_success rfl hout
  obtain rfl := eq_of_exec_success rfl hgen
  obtain ⟨hcrc, hobuf⟩ := hrun.crc_obuf
  have hwf : Memory.wf t₁.obuf = true := hobuf ▸ hs.obufWf
  have hsame : t₁.crc = crc24Fold crcInitValue (window u) := hwindow ▸ hcrc
  refine ⟨hsame.trans (and_crcMask_crc24Fold (window u)).symm, rfl, fun a ha => ?_⟩
  have hwfGen (c : Word) : Memory.wf (putCrc c u).obuf = true := hu.obufWf
  simp only [ok_obuf, commandEffect]
  rw [read_putOutput_be hwf, read_putOutput_be (hwfGen _), if_pos ha, if_pos ha, hsame]

/-! ### The residue of a message with its checksum (R108) -/

/-- A value whose n-fold shift stays below 2^24 is only shifted: bit 24 is never set. -/
theorem repeat_crcBitNat_of_lt {c n : Nat} (h : c * 2 ^ n < 2 ^ 24) :
    Nat.repeat crcBitNat n c = c * 2 ^ n := by
  induction n with
  | zero => exact (Nat.mul_one c).symm
  | succ n ih =>
    rw [Nat.pow_succ, ← Nat.mul_assoc] at h ⊢
    have hbit : (c * 2 ^ n * 2) &&& 0x1000000 = 0 :=
      (Nat.and_two_pow _ 24).trans (by rw [Nat.testBit_lt_two_pow h]; rfl)
    rw [Nat.repeat, ih (by omega), crcBitNat, Nat.shiftLeft_eq, Nat.pow_one, if_neg (not_not.2 hbit)]

theorem xor_topByte (c : Nat) : c ^^^ (c / 2 ^ 16) <<< 16 = c % 2 ^ 16 := by
  apply Nat.eq_of_testBit_eq
  intro i
  rw [Nat.testBit_xor, Nat.testBit_shiftLeft, Nat.testBit_div_two_pow, Nat.testBit_mod_two_pow]
  by_cases hi : i < 16
  · simp [hi, Nat.not_le.2 hi]
  · simp [hi, Nat.not_lt.1 hi]

/-- Folding in the value's own top byte cancels it and moves the other two bytes up. -/
theorem crcByteNat_topByte {c : Nat} {b : Byte} (h : b.toNat = c / 2 ^ 16) :
    crcByteNat c b = c % 2 ^ 16 * 2 ^ 8 := by
  rw [crcByteNat, h, xor_topByte]
  exact repeat_crcBitNat_of_lt (by omega)

/-- Folding a value's own three bytes cancels them one by one. -/
theorem crcFoldNat_be_self {c : Nat} (h : c < 2 ^ 24) : crcFoldNat c (be 3 c) = 0 := by
  have cancel {r : Nat} (n : Nat) (hr : r / 2 ^ 16 = c / 2 ^ n % 2 ^ 8) :
      crcByteNat r (BitVec.ofNat 8 (c >>> n)) = r % 2 ^ 16 * 2 ^ 8 := by
    refine crcByteNat_topByte ?_
    rw [BitVec.toNat_ofNat, Nat.shiftRight_eq_div_pow, hr]
  simp only [be, crcFoldNat]
  rw [cancel (8 * 2), cancel (8 * 1), cancel (8 * 0)] <;> omega

/-- Settles O12: the message's fold is below 2^24, and folding its own bytes in gives 0. -/
theorem messageWithItsChecksumHasResidueZero :
    Obligations.MessageWithItsChecksumHasResidueZero := by
  unfold Obligations.MessageWithItsChecksumHasResidueZero
  have residue (m : List Byte) :
      crc24Fold crcInitValue (m ++ be 3 (crc24Fold crcInitValue m).toNat) = 0#32 := by
    have hlt := crc24Fold_lt crcInitValue_lt m
    apply BitVec.eq_of_toNat_eq
    rw [crc24Fold_append, toNat_crc24Fold hlt, crcFoldNat_be_self hlt]
    rfl
  refine ⟨residue, fun s m hwindow => ⟨_, exec_of_success rfl, ?_⟩⟩
  rw [ok_crc, commandEffect, putOutput_crc, putCrc_crc, and_crcMask_crc24Fold, hwindow, residue]

end Sys2Proof.Machine

/-! PROOFS. The six MPI commands (spec 41_mpint.md R121 to R135). -/

namespace Sys2Proof.Machine

/-! ### Leading zero bytes (R14, R122) -/

theorem stripLZ_zeros_append {z : List Byte} (hz : ∀ b ∈ z, b = 0#8) (t : List Byte) :
    stripLZ (z ++ t) = stripLZ t := by
  induction z with
  | nil => rfl
  | cons b z ih =>
    obtain ⟨rfl, htail⟩ := List.forall_mem_cons.1 hz
    exact ih htail

theorem Memory.forall_mem_readBytes {p : Byte → Prop} {m : Memory} {a n : Nat}
    (h : ∀ i < n, p (Memory.read m (a + i))) : ∀ b ∈ Memory.readBytes m a n, p b := by
  induction n generalizing a with
  | zero => simp [Memory.readBytes]
  | succ n ih =>
    refine List.forall_mem_cons.2 ⟨h 0 (Nat.succ_pos n), ih fun i hi => ?_⟩
    rw [Nat.add_assoc, Nat.add_comm 1]
    exact h (i + 1) (Nat.succ_lt_succ hi)

theorem exists_leadingZeros (m : Memory) (n : Nat) :
    ∃ k ≤ n, (∀ j < k, Memory.read m j = 0#8) ∧ (k < n → Memory.read m k ≠ 0#8) := by
  have hex : ∃ k, n ≤ k ∨ Memory.read m k ≠ 0#8 := ⟨n, .inl le_rfl⟩
  refine ⟨Nat.find hex, Nat.find_min' hex (.inl le_rfl), fun j hj => ?_, fun hlt => ?_⟩
  · exact not_not.1 fun hne => Nat.find_min hex hj (.inr hne)
  · exact (Nat.find_spec hex).resolve_left hlt.not_ge

/-- Without its k leading zero bytes, the head of a buffer is what stands from index k on. -/
theorem stripLZ_readBytes {m : Memory} {n k : Nat} (hk : k ≤ n)
    (hzero : ∀ j < k, Memory.read m j = 0#8) (hstop : k < n → Memory.read m k ≠ 0#8) :
    stripLZ (Memory.readBytes m 0 n) = Memory.readBytes m k (n - k) := by
  obtain ⟨r, rfl⟩ := Nat.exists_eq_add_of_le hk
  rw [Memory.readBytes_add, Nat.zero_add, Nat.add_sub_cancel_left,
    stripLZ_zeros_append (Memory.forall_mem_readBytes (by simpa using hzero))]
  cases r with
  | zero => rfl
  | succ r => exact stripLZ_cons_of_ne (hstop (by omega)) _

theorem blen8_eq_of_highest_bit {b : Byte} {h : Nat} (hle : 2 ^ h ≤ b.toNat)
    (hlt : b.toNat < 2 ^ (h + 1)) : blen8 b = h + 1 := by
  have hne : b.toNat ≠ 0 := (Nat.two_pow_pos h).trans_le hle |>.ne'
  rw [blen8, (Nat.log2_eq_iff hne).2 ⟨hle, hlt⟩]

theorem StateInv.lt_two_pow_of_le_cap {s : State} (hs : StateInv s) {n : Nat}
    (h : n ≤ s.cap.toNat + 2) : n < 2 ^ 32 := by
  have := hs.cap_le
  omega

/-! ### What the commands read and write, byte by byte -/

@[simp] theorem Memory.getElem_readBytes {m : Memory} {a n i : Nat}
    (hi : i < (Memory.readBytes m a n).length) :
    (Memory.readBytes m a n)[i] = Memory.read m (a + i) := by
  rw [List.getElem_eq_iff, Memory.getElem?_readBytes, if_pos (Memory.length_readBytes m a n ▸ hi)]

/-- Writing to the head of a buffer the bytes that MemRead returned copies them. -/
theorem Memory.read_writeBytes_readBytes {m : Memory} (h : Memory.wf m) (m' : Memory) (a n x : Nat) :
    Memory.read (Memory.writeBytes m 0 (Memory.readBytes m' a n)) x =
      if x < n then Memory.read m' (a + x) else Memory.read m x := by
  by_cases hx : x < n <;> simp [Memory.read_writeBytes h, hx]

/-- The declared byte length from the two bytes of the prefix (R125). -/
theorem declaredByteLen_eq_prefix (s : State) : declaredByteLen s =
    ((Memory.read s.ibuf 0).toNat * 256 + (Memory.read s.ibuf 1).toNat + 7) / 8 := by
  simp [declaredByteLen, ceil8, Memory.readBytes, beval, Nat.mul_comm]

theorem exec_mpiEncode_of_le {s : State} (h : bitLengthOf (mpint s) ≤ 65535) :
    exec .mpiEncode s = .next (ok (commandEffect .mpiEncode s)) :=
  exec_of_success (if_neg h.not_gt)

theorem exec_mpiDecode_of_le {s : State} (h : 2 + declaredByteLen s ≤ s.inLen.toNat) :
    exec .mpiDecode s = .next (ok (commandEffect .mpiDecode s)) :=
  exec_of_success (if_neg (by omega))

/-- A command that leaves ERR = 0 succeeded. -/
theorem eq_of_exec_statusErr_zero {i : Instr} {s t : State} (hs : StateInv s)
    (h : exec i s = .next t) (herr : statusErr t = 0) : t = ok (commandEffect i s) := by
  obtain ⟨k, arg, hf, rfl⟩ | ⟨-, rfl⟩ := exec_next_cases h
  · rw [statusErr_raise] at herr
    exact absurd herr (commandFailure_reportsTruly hs hf).errCode_ne_zero
  · rfl

/-! ### BITLEN (R121, R122) -/

theorem toNat_val_bitlen {s : State} (hs : StateInv s) :
    (commandEffect .bitlen s).val.toNat = bitLengthOf (window s) := by
  refine toNat_ofNat_of_le hs ((bitLengthOf_le _).trans ?_)
  rw [length_window]
  exact Nat.mul_le_mul_left 8 hs.inLenLe

/-- Settles O13: the window's bit length is that of the window without its k leading zeros, whose head is
the first non-zero byte. -/
theorem bitlenWritesTheBitLengthOfTheWindow :
    Obligations.BitlenWritesTheBitLengthOfTheWindow := by
  unfold Obligations.BitlenWritesTheBitLengthOfTheWindow
  refine ⟨decode_bitlen, fun s hs =>
    ⟨_, exec_of_success rfl, rfl, fun hzero => ?_, fun k h hk hzero hle hlt => ?_, succeeded_ok rfl⟩⟩
  · have hstrip := stripLZ_readBytes le_rfl hzero (fun hn => absurd hn (Nat.lt_irrefl _))
    apply BitVec.eq_of_toNat_eq
    rw [ok_val, toNat_val_bitlen hs, ← bitLengthOf_stripLZ, window, hstrip, Nat.sub_self]
    rfl
  · have hne : Memory.read s.ibuf k ≠ 0#8 := fun h0 => by
      rw [h0] at hle
      exact absurd hle (Nat.two_pow_pos h).not_ge
    have hstrip := stripLZ_readBytes hk.le hzero (fun _ => hne)
    obtain ⟨r, hr⟩ : ∃ r, s.inLen.toNat - k = r + 1 := ⟨s.inLen.toNat - k - 1, by omega⟩
    rw [ok_val, toNat_val_bitlen hs, ← bitLengthOf_stripLZ, window, hstrip, hr,
      Memory.readBytes_succ, bitLengthOf_cons_of_ne hne, blen8_eq_of_highest_bit hle hlt,
      Memory.length_readBytes, Nat.add_sub_cancel]

/-! ### MPI_LOAD (R123, R124) -/

/-- Settles O14: the window without its k leading zeros is `IBUF[k..IN_LEN)`, which MemWrite copies. -/
theorem mpiLoadStripsLeadingZeros : Obligations.MpiLoadStripsLeadingZeros := by
  unfold Obligations.MpiLoadStripsLeadingZeros
  refine ⟨decode_mpiLoad, fun s hs => ⟨_, exec_of_success rfl, rfl, ?_, succeeded_ok rfl⟩⟩
  obtain ⟨k, hk, hzero, hstop⟩ := exists_leadingZeros s.ibuf s.inLen.toNat
  have hin := hs.inLenLe
  have hstrip : stripLZ (window s) = Memory.readBytes s.ibuf k (s.inLen.toNat - k) :=
    stripLZ_readBytes hk hzero hstop
  refine ⟨k, hk, hzero, hstop, ?_, fun a => ?_⟩
  · rw [ok_mpiLen, commandEffect, putMpint_mpiLen, hstrip, Memory.length_readBytes]
    exact toNat_ofNat_of_le hs (by omega)
  · rw [ok_mbuf, commandEffect, putMpint_mbuf, hstrip]
    exact Memory.read_writeBytes_readBytes hs.mbufWf ..

theorem mpint_mpiLoad {s : State} (hs : StateInv s) :
    mpint (commandEffect .mpiLoad s) = stripLZ (window s) := by
  have hcap := (length_stripLZ_window_le s).trans hs.inLenLe
  exact mpint_putMpint hs.mbufWf (hs.lt_two_pow_of_le_cap (by omega))

/-- Settles O15: the new MPInt starts at the window's first non-zero byte (O14), and a list's bit length
takes the bytes after its leading zeros. -/
theorem mpiLoadLeavesACanonicalMpint : Obligations.MpiLoadLeavesACanonicalMpint := by
  unfold Obligations.MpiLoadLeavesACanonicalMpint
  intro s hs
  obtain ⟨t, hexec, -, ⟨k, -, -, hstop, hlen, hread⟩, -⟩ := mpiLoadStripsLeadingZeros.2 s hs
  refine ⟨t, hexec, ?_, ?_⟩
  · by_cases hk : k < s.inLen.toNat
    · right
      rw [hread, if_pos (by omega)]
      exact hstop hk
    · left
      exact BitVec.eq_of_toNat_eq (hlen.trans (by rw [BitVec.toNat_zero]; omega))
  · obtain rfl := eq_of_exec_success rfl hexec
    rw [← length_mpint, mpint_ok, mpint_mpiLoad hs, bitLengthOf_stripLZ, ceil8_bitLengthOf]

/-! ### MPI_DECODE (R125 to R127) -/

/-- Settles O16: the two checks are MPI_DECODE's one failure, and its effect copies the bytes after the
prefix to MBUF. -/
theorem mpiDecodeChecksThenExtracts : Obligations.MpiDecodeChecksThenExtracts := by
  unfold Obligations.MpiDecodeChecksThenExtracts
  refine ⟨decode_mpiDecode, fun s hs => ?_⟩
  have hin := hs.inLenLe
  simp only [← declaredByteLen_eq_prefix]
  refine ⟨fun hshort => ⟨_, exec_of_failure (if_pos hshort), raised_raise _ _ _⟩, fun hfits =>
    ⟨_, exec_mpiDecode_of_le hfits, rfl, ?_, toNat_ofNat_of_le hs (by omega), fun a => ?_,
      succeeded_ok rfl⟩⟩
  · rw [ok_mpiLen, commandEffect, putConsumed_mpiLen, putMpint_mpiLen, Memory.length_readBytes]
    exact toNat_ofNat_of_le hs (by omega)
  · exact Memory.read_writeBytes_readBytes hs.mbufWf ..

/-! ### MPI_ENCODE, MPI_WLEN, MPI_RAW (R128 to R132) -/

theorem toNat_outLen_mpiEncode {s : State} (hs : StateInv s) :
    (commandEffect .mpiEncode s).outLen.toNat = 2 + s.mpiLen.toNat := by
  have hcap := hs.four_le_cap
  have hmpi := hs.mpiLenLe
  rw [commandEffect, putOutput_outLen, List.length_append, length_be, length_mpint]
  exact toNat_ofNat_of_le hs (by omega)

theorem toNat_val_mpiWlen {s : State} (hs : StateInv s) :
    (commandEffect .mpiWlen s).val.toNat = 2 + ceil8 (bitLengthOf (mpint s)) := by
  have hcap := hs.four_le_cap
  have hmpi := hs.mpiLenLe
  have hbytes := (ceil8_bitLengthOf (mpint s)).trans_le (length_stripLZ_le _)
  rw [length_mpint] at hbytes
  exact toNat_ofNat_of_le hs (by omega)

/-- OBUF after the wire form: the two bytes of the prefix, the raw bytes, and the rest as before. -/
theorem read_obuf_mpiEncode {s : State} (hs : StateInv s) (a : Nat) :
    Memory.read (commandEffect .mpiEncode s).obuf a =
      if a = 0 then BitVec.ofNat 8 (bitLengthOf (mpint s) / 256)
      else if a = 1 then BitVec.ofNat 8 (bitLengthOf (mpint s) % 256)
      else if a < 2 + s.mpiLen.toNat then Memory.read s.mbuf (a - 2)
      else Memory.read s.obuf a := by
  rw [commandEffect, read_putOutput hs.obufWf, List.length_append, length_be, length_mpint]
  obtain _ | _ | a := a
  · simp [be, Nat.shiftRight_eq_div_pow]
  · have hlow : BitVec.ofNat 8 (bitLengthOf (mpint s)) = BitVec.ofNat 8 (bitLengthOf (mpint s) % 256) :=
      BitVec.eq_of_toNat_eq (by simp)
    rw [if_pos (by omega)]
    simp [be, hlow]
  · simp only [be, List.cons_append, List.nil_append, List.getD_cons_succ]
    by_cases ha : a + 2 < 2 + s.mpiLen.toNat
    · have ha' : a < s.mpiLen.toNat := by omega
      simp [ha, ha', mpint]
    · simp [ha]

/-- Settles O17: an overlong bit length is MPI_ENCODE's one failure; its effect writes the wire form. -/
theorem mpiEncodeEmitsPrefixAndRawBytes : Obligations.MpiEncodeEmitsPrefixAndRawBytes := by
  unfold Obligations.MpiEncodeEmitsPrefixAndRawBytes
  refine ⟨decode_mpiEncode, fun s hs => ⟨fun hlong => ?_, fun hfits => ?_⟩⟩
  · exact ⟨_, exec_of_failure (if_pos hlong), toNat_ofNat_of_le hs hs.bitLengthOf_mpint_le,
      raised_raise _ _ _⟩
  · exact ⟨_, exec_mpiEncode_of_le hfits, rfl, toNat_outLen_mpiEncode hs, read_obuf_mpiEncode hs,
      succeeded_ok rfl⟩

/-- Settles O18: the wire length of an MPInt in MBUF fits VAL. -/
theorem mpiWlenWritesTheWireLength : Obligations.MpiWlenWritesTheWireLength := by
  unfold Obligations.MpiWlenWritesTheWireLength
  exact ⟨decode_mpiWlen, fun s hs =>
    ⟨_, exec_of_success rfl, rfl, toNat_val_mpiWlen hs, succeeded_ok rfl⟩⟩

/-- Settles O19: the bit length counts the bytes after the z leading zeros, the raw form has them too. -/
theorem wireLengthAgreesWithEncodeExactlyWhenCanonical :
    Obligations.WireLengthAgreesWithEncodeExactlyWhenCanonical := by
  unfold Obligations.WireLengthAgreesWithEncodeExactlyWhenCanonical
  intro s w e z hs hz hzero hstop hw he herr
  obtain rfl := eq_of_exec_success rfl hw
  obtain rfl := eq_of_exec_statusErr_zero hs he herr
  have hwire : (commandEffect .mpiWlen s).val.toNat = 2 + s.mpiLen.toNat - z := by
    rw [toNat_val_mpiWlen hs, ceil8_bitLengthOf, mpint, stripLZ_readBytes hz hzero hstop,
      Memory.length_readBytes, Nat.add_sub_assoc hz]
  have hout := toNat_outLen_mpiEncode hs
  refine ⟨hwire, hout, ?_⟩
  rw [ok_val, ok_outLen, ← BitVec.toNat_inj, hwire, hout]
  omega

/-- Settles O20: MPI_RAW's effect copies `MBUF[0..MPI_LEN)` to OBUF. -/
theorem mpiRawCopiesTheRawForm : Obligations.MpiRawCopiesTheRawForm := by
  unfold Obligations.MpiRawCopiesTheRawForm
  refine ⟨decode_mpiRaw, fun s hs => ⟨_, exec_of_success rfl, ?_, fun a => ?_, succeeded_ok rfl⟩⟩
  · simp [ok, commandEffect, putOutput]
  · have hcopy := Memory.read_writeBytes_readBytes hs.obufWf s.mbuf 0 s.mpiLen.toNat a
    rwa [Nat.zero_add] at hcopy

/-! ### Sequences of the commands (R133 to R135) -/

theorem output_mpiEncode {s : State} (hs : StateInv s) {bs : List Byte} (h : mpint s = bs) :
    output (ok (commandEffect .mpiEncode s)) = be 2 (bitLengthOf bs) ++ bs := by
  subst h
  refine output_putOutput hs.obufWf (hs.lt_two_pow_of_le_cap ?_)
  have hmpi := hs.mpiLenLe
  rw [List.length_append, length_be, length_mpint]
  omega

theorem val_mpiWlen {s : State} {bs : List Byte} (h : mpint s = bs) :
    (ok (commandEffect .mpiWlen s)).val = BitVec.ofNat 32 (2 + ceil8 (bitLengthOf bs)) :=
  h ▸ rfl

/-- MPI_DECODE of a window in wire form: the bytes after the prefix become the MPInt. -/
theorem exists_exec_mpiDecode_wire {s : State} (hs : StateInv s) {l : Nat} {bs : List Byte}
    (hl : l ≤ 65535) (hbytes : ceil8 l = bs.length) (hwindow : window s = be 2 l ++ bs) :
    ∃ t, exec .mpiDecode s = .next t ∧ mpint t = bs ∧ t.mpiLen = BitVec.ofNat 32 bs.length ∧
      t.consumed = BitVec.ofNat 32 (2 + bs.length) ∧ statusErr t = 0 := by
  have hcap := hs.inLenLe
  have hlen : s.inLen.toNat = 2 + bs.length := by
    rw [← length_window, hwindow, List.length_append, length_be]
  have hdeclared : declaredByteLen s = bs.length := by
    rw [declaredByteLen, readBytes_ibuf_of_le (by omega), hwindow, List.drop_zero,
      List.take_left' (length_be 2 l), beval_be, Nat.mod_eq_of_lt (by omega), hbytes]
  have hraw : Memory.readBytes s.ibuf 2 bs.length = bs := by
    rw [readBytes_ibuf_of_le hlen.ge, hwindow, List.drop_left' (length_be 2 l), List.take_length]
  refine ⟨_, exec_mpiDecode_of_le (by omega), ?_⟩
  rw [commandEffect, hdeclared, hraw]
  exact ⟨mpint_putMpint hs.mbufWf (hs.lt_two_pow_of_le_cap (by omega)), rfl, rfl, statusErr_ok _⟩

/-- Settles O21: MPI_LOAD leaves the stripped bytes, whose wire form MPI_ENCODE emits and MPI_DECODE reads
back, whatever else the host's copy leaves in IBUF. That the wire form fits N is used through the
invariant of the state that holds it as its window. -/
theorem loadEncodeDecodeRoundTrips : Obligations.LoadEncodeDecodeRoundTrips := by
  unfold Obligations.LoadEncodeDecodeRoundTrips
  intro b s hs hwindow hbits _
  have hload : exec .mpiLoad s = .next (ok (commandEffect .mpiLoad s)) := exec_of_success rfl
  have hloaded : mpint (ok (commandEffect .mpiLoad s)) = stripLZ b := hwindow ▸ mpint_mpiLoad hs
  have hl : bitLengthOf (stripLZ b) = bitLengthOf b := bitLengthOf_stripLZ b
  have hbytes : ceil8 (bitLengthOf b) = (stripLZ b).length := ceil8_bitLengthOf b
  have hencode := exec_mpiEncode_of_le (hloaded ▸ hl.trans_le hbits)
  refine ⟨_, _, hload, hencode, fun u hu ⟨_, hwire⟩ => ?_⟩
  rw [output_mpiEncode (stateInv_exec hs hload) hloaded, hl] at hwire
  obtain ⟨t₃, hdecode, hback, -, hconsumed, herr⟩ :=
    exists_exec_mpiDecode_wire hu hbits hbytes hwire
  have hfits : 2 + (stripLZ b).length ≤ u.cap.toNat := by
    have hlen := congrArg List.length hwire
    rw [length_window, List.length_append, length_be] at hlen
    exact hlen ▸ hu.inLenLe
  refine ⟨t₃, _, hdecode, exec_of_success rfl, hback, ?_, ?_, herr, statusErr_ok _⟩
  · exact hconsumed ▸ toNat_ofNat_of_le hu (by omega)
  · rw [val_mpiWlen hback, hl, hbytes]
    exact hconsumed.symm

/-- Settles O22: the window without leading zeros is empty, and `BE(2, 0)` is its whole wire form. -/
theorem zeroMpintRoundTrips : Obligations.ZeroMpintRoundTrips := by
  unfold Obligations.ZeroMpintRoundTrips
  refine ⟨fun s hs hzero => ?_, fun s hs hwindow => ?_⟩
  · have hload : exec .mpiLoad s = .next (ok (commandEffect .mpiLoad s)) := exec_of_success rfl
    have hstrip : stripLZ (window s) = [] := by
      rw [← List.append_nil (window s), stripLZ_zeros_append hzero, stripLZ_nil]
    have hempty : mpint (ok (commandEffect .mpiLoad s)) = [] := (mpint_mpiLoad hs).trans hstrip
    refine ⟨_, _, _, hload, ?_, exec_mpiEncode_of_le ?_,
      output_mpiEncode (stateInv_exec hs hload) hempty, exec_of_success rfl, val_mpiWlen hempty⟩
    · rw [ok_mpiLen, commandEffect, putMpint_mpiLen, hstrip, List.length_nil]
    · rw [hempty, bitLengthOf_nil]
      exact Nat.zero_le _
  · obtain ⟨t, hdecode, hempty, hlen, hconsumed, -⟩ :=
      exists_exec_mpiDecode_wire (l := 0) (bs := []) hs (by decide) rfl hwindow
    exact ⟨t, _, hdecode, hlen, hconsumed, exec_of_success rfl, val_mpiWlen hempty⟩

/-- Settles O23: the prefix says 16 bits, but the two raw bytes have a bit length of 1. -/
theorem decodeThenEncodeRecomputesThePrefix : Obligations.DecodeThenEncodeRecomputesThePrefix := by
  unfold Obligations.DecodeThenEncodeRecomputesThePrefix
  intro s hs hwindow
  obtain ⟨t, hdecode, hmpint, hlen, -, -⟩ :=
    exists_exec_mpiDecode_wire (l := 16) (bs := [0x00#8, 0x01#8]) hs (by decide) rfl hwindow
  have hbits : bitLengthOf [0x00#8, 0x01#8] = 1 := by decide
  refine ⟨t, _, hdecode, hmpint, hlen, exec_mpiEncode_of_le ?_, ?_⟩
  · rw [hmpint, hbits]
    decide
  · rw [output_mpiEncode (stateInv_exec hs hdecode) hmpint, hbits]
    rfl

end Sys2Proof.Machine

/-! PROOFS. The fixed-width commands BE_ENCn and BE_DECn (spec 42_byte_encoding.md R150 to R158). -/

namespace Sys2Proof.Machine

/-! ### The shared steps, for every width up to a register's (R150, R154) -/

theorem output_putOutput_be {s : State} (hw : Memory.wf s.obuf = true) {n : Nat} (hn : n ≤ 4)
    (v : Nat) : output (putOutput (be n v) s) = be n v := by
  refine output_putOutput hw ?_
  rw [length_be]
  omega

/-- The value of at most 4 bytes fits VAL. -/
theorem toNat_val_putVal_beval {bs : List Byte} (h : bs.length ≤ 4) (s : State) :
    (putVal (beval bs) s).val.toNat = beval bs := by
  have hlt : beval bs < 256 ^ 4 :=
    (beval_lt bs).trans_le (Nat.pow_le_pow_right (by decide) h)
  rw [putVal_val, BitVec.toNat_ofNat]
  exact Nat.mod_eq_of_lt hlt

/-- `BE` of a VAL that holds the value of n bytes gives those bytes back. -/
theorem be_val_putVal_beval {bs : List Byte} {n : Nat} (hlen : bs.length = n) (hn : n ≤ 4)
    (s : State) : be n (putVal (beval bs) s).val.toNat = bs := by
  subst hlen
  rw [toNat_val_putVal_beval hn, be_beval]

theorem beDec_of_lt {n : Nat} {s : State} (h : s.inLen.toNat < n) :
    beDec n s = .next (raise .tooShort s.inLen s) := if_pos h

theorem beDec_of_le {n : Nat} {s : State} (h : n ≤ s.inLen.toNat) :
    beDec n s = .next (ok (putVal (beval (Memory.readBytes s.ibuf 0 n)) s)) := if_neg h.not_gt

/-! ### The commands of each width (R151 to R153, R155 to R157) -/

/-- Settles O24: each command is the shared step of its width, whose output is `BE(n, VAL)`. -/
theorem beEncWritesTheLowBytesOfVal : Obligations.BeEncWritesTheLowBytesOfVal := by
  unfold Obligations.BeEncWritesTheLowBytesOfVal
  intro w i n hmem
  obtain ⟨hdecode, hn, hexec⟩ : decode w = .ok i ∧ n ≤ 4 ∧ ∀ s, exec i s = beEnc n s := by
    simp only [List.mem_cons, Prod.mk.injEq, List.not_mem_nil, or_false] at hmem
    obtain ⟨rfl, rfl, rfl⟩ | ⟨rfl, rfl, rfl⟩ | ⟨rfl, rfl, rfl⟩ := hmem
    · exact ⟨decode_beEnc2, by decide, fun _ => rfl⟩
    · exact ⟨decode_beEnc3, by decide, fun _ => rfl⟩
    · exact ⟨decode_beEnc4, by decide, fun _ => rfl⟩
  refine ⟨hdecode, fun s hw => ⟨_, hexec s, ?_, read_putOutput_be hw n _, ?_, succeeded_ok rfl⟩⟩
  · rw [ok, putOutput, length_be]
  · rw [output_ok, output_putOutput_be hw hn, beval_be]

/-- Settles O25: each command is the shared step of its width, and the value of the bytes it reads is the
weighted sum written out. -/
theorem beDecReadsTheFirstBytesOfTheWindow : Obligations.BeDecReadsTheFirstBytesOfTheWindow := by
  unfold Obligations.BeDecReadsTheFirstBytesOfTheWindow
  intro s b w i n v hmem
  obtain ⟨hdecode, hn, hexec, hv⟩ : decode w = .ok i ∧ n ≤ 4 ∧ exec i s = beDec n s ∧
      beval (Memory.readBytes s.ibuf 0 n) = v := by
    simp only [List.mem_cons, Prod.mk.injEq, List.not_mem_nil, or_false] at hmem
    obtain ⟨rfl, rfl, rfl, rfl⟩ | ⟨rfl, rfl, rfl, rfl⟩ | ⟨rfl, rfl, rfl, rfl⟩ := hmem
    · refine ⟨decode_beDec2, by decide, rfl, ?_⟩
      simp [Memory.readBytes, beval, b, Nat.mul_comm]
    · refine ⟨decode_beDec3, by decide, rfl, ?_⟩
      simp [Memory.readBytes, beval, b, Nat.mul_comm, Nat.add_assoc]
    · refine ⟨decode_beDec4, by decide, rfl, ?_⟩
      simp [Memory.readBytes, beval, b, Nat.mul_comm, Nat.add_assoc]
  have hval := toNat_val_putVal_beval ((Memory.length_readBytes s.ibuf 0 n).trans_le hn) s
  rw [hexec]
  exact ⟨hdecode, fun hshort => ⟨_, beDec_of_lt hshort, raised_raise _ _ _⟩,
    fun hfits => ⟨_, beDec_of_le hfits, rfl, hval.trans hv, succeeded_ok rfl⟩⟩

/-! ### Encode and decode are inverse (R158) -/

/-- Decoding a window `BE(n, x)` gives x, up to the bits that n bytes drop. -/
theorem exists_beDec_of_window_be {u : State} {n x : Nat} (hn : n ≤ 4) (hwindow : window u = be n x) :
    ∃ v, beDec n u = .next v ∧ v.val.toNat = x % 2 ^ (8 * n) := by
  have hlen : u.inLen.toNat = n := by rw [← length_window, hwindow, length_be]
  have hread : Memory.readBytes u.ibuf 0 n = be n x := hlen ▸ hwindow
  refine ⟨_, beDec_of_le hlen.ge, ?_⟩
  rw [hread, ok_val, toNat_val_putVal_beval ((length_be n x).trans_le hn), beval_be]

/-- Settles O26: `beval` undoes `BE` up to the dropped bits, and `BE` undoes `beval` on n bytes. -/
theorem fixedWidthCodecsAreInverse : Obligations.FixedWidthCodecsAreInverse := by
  unfold Obligations.FixedWidthCodecsAreInverse
  intro enc dec n hmem
  obtain ⟨hn, hencode, hdecode⟩ :
      n ≤ 4 ∧ (∀ s, exec enc s = beEnc n s) ∧ ∀ s, exec dec s = beDec n s := by
    simp only [List.mem_cons, Prod.mk.injEq, List.not_mem_nil, or_false] at hmem
    obtain ⟨rfl, rfl, rfl⟩ | ⟨rfl, rfl, rfl⟩ | ⟨rfl, rfl, rfl⟩ := hmem
    all_goals exact ⟨by decide, fun _ => rfl, fun _ => rfl⟩
  refine ⟨fun s t u hs henc ⟨_, hwindow⟩ => ?_, fun s t hs hfits hdec => ?_⟩
  · obtain rfl := Host.Outcome.next.inj ((hencode s).symm.trans henc)
    rw [output_ok, output_putOutput_be hs.obufWf hn] at hwindow
    rw [hdecode]
    exact exists_beDec_of_window_be hn hwindow
  · rw [hdecode, beDec_of_le hfits] at hdec
    obtain rfl := Host.Outcome.next.inj hdec
    refine ⟨_, hencode _, fun a ha => ?_⟩
    rw [ok_val, be_val_putVal_beval (Memory.length_readBytes ..) hn, ok_obuf, putOutput_obuf, ok_obuf,
      putVal_obuf, Memory.read_writeBytes_readBytes hs.obufWf, if_pos ha, Nat.zero_add]

end Sys2Proof.Machine

/-! PROOFS. Errors as status results (spec 60_exceptions.md R171 to R174), and that nothing the host issues
stops the machine (R188). -/

namespace Sys2Proof.Machine

/-! ### The table of errors (R171) -/

/-- The table of R171 is what the meanings check, with each argument read as a number: a bit length that
overflows still fits ERR_ARG. -/
theorem commandError_eq_map_commandFailure {s : State} (hs : StateInv s) (i : Instr) :
    commandError i s = (commandFailure i s).map fun (k, arg) => (k, arg.toNat) := by
  cases i with
  | mpiDecode =>
    simp only [commandError, commandFailure, declaredByteLen_eq_prefix]
    split <;> rfl
  | mpiEncode =>
    simp only [commandError, commandFailure]
    split
    · rw [Option.map_some, toNat_ofNat_of_le hs hs.bitLengthOf_mpint_le]
    · rfl
  | beDec2 | beDec3 | beDec4 =>
    simp only [commandError, commandFailure]
    split <;> rfl
  | _ => rfl

theorem commandEffect_status (i : Instr) (s : State) : (commandEffect i s).status = s.status :=
  (commandEffect_frame i s).1

/-- Settles O28: the codes by computation, a command by the table's reading of its failure, and a word that
is no command by R85. -/
theorem errorsAreExactlyThoseOfTheTable : Obligations.ErrorsAreExactlyThoseOfTheTable := by
  unfold Obligations.ErrorsAreExactlyThoseOfTheTable
  refine ⟨rfl, fun i s hs => ?_, fun w s hw => ?_⟩
  · rw [commandError_eq_map_commandFailure hs]
    cases hf : commandFailure i s with
    | none => exact ⟨_, exec_of_success hf, succeeded_ok (commandEffect_status i s)⟩
    | some e => exact ⟨_, exec_of_failure hf, rfl, raised_raise e.1 e.2 s⟩
  · exact ⟨_, runCommand_of_not_encode hw s, raised_raise .illegal w s⟩

/-! ### The two results of a command word (R172, R173) -/

/-- Every word either raises, as an illegal word does, or is a command that succeeds. -/
theorem runCommand_raise_or_ok {w : Word} {s t : State} (h : runCommand w s = .next t) :
    (∃ k arg, t = raise k arg s) ∨ ∃ i, t = ok (commandEffect i s) := by
  obtain ⟨i, he⟩ | ⟨-, rfl⟩ := runCommand_next_cases h
  · obtain ⟨k, arg, -, rfl⟩ | ⟨-, rfl⟩ := exec_next_cases he
    · exact .inl ⟨k, arg, rfl⟩
    · exact .inr ⟨i, rfl⟩
  · exact .inl ⟨.illegal, w, rfl⟩

/-- Settles O29: of the two results of a command word, only `raise` leaves ERR other than 0. -/
theorem aRaisingCommandChangesOnlyItsReport : Obligations.ARaisingCommandChangesOnlyItsReport := by
  unfold Obligations.ARaisingCommandChangesOnlyItsReport
  intro w s t hrun herr
  obtain ⟨k, arg, rfl⟩ | ⟨i, rfl⟩ := runCommand_raise_or_ok hrun
  · refine ⟨k, arg, ?_, statusErr_raise k arg s, raised_raise k arg s⟩
    rintro rfl
    exact herr (statusErr_raise .none arg s)
  · exact absurd (statusErr_ok _) herr

/-! ### The sticky flag (R174) -/

theorem statusEacc_congr {s t : State} (h : t.status = s.status) : statusEacc t = statusEacc s := by
  rw [statusEacc, h, statusEacc]

/-- No command word clears EACC, whether it raises or succeeds. -/
theorem statusEacc_runCommand {w : Word} {s t : State} (h : runCommand w s = .next t)
    (hs : statusEacc s = true) : statusEacc t = true := by
  obtain ⟨k, arg, rfl⟩ | ⟨i, rfl⟩ := runCommand_raise_or_ok h
  · exact statusEacc_raise k arg s
  · rwa [statusEacc_ok, statusEacc_congr (commandEffect_status i s)]

/-- Of the registers, only CMD and STATUS let a write change STATUS. -/
theorem hpWr_keeps_status {r v : Word} {s t : State} (h : hpWr r v s = .next t) (h0 : r.toNat ≠ 0)
    (h1 : r.toNat ≠ 1) : t.status = s.status := by
  unfold hpWr at h
  split at h
  · exact absurd ‹_› h0
  · exact absurd ‹_› h1
  · cases h
    rfl
  · cases h
    split <;> rfl
  · cases h
    rfl

theorem statusEacc_hpWr {r v : Word} {s t : State} (h : hpWr r v s = .next t)
    (hs : statusEacc s = true) : statusEacc t = false ↔ r = 1#32 ∧ v.getLsbD 8 = true := by
  by_cases h1 : r.toNat = 1
  · obtain rfl : r = 1#32 := BitVec.eq_of_toNat_eq h1
    rw [hpWr_status v s h1] at h
    cases h
    cases hv : v.getLsbD 8 <;> simp [hs]
  · have hne : r ≠ 1#32 := fun hr => h1 (hr ▸ rfl)
    have hkept : statusEacc t = true := by
      by_cases h0 : r.toNat = 0
      · rw [hpWr_cmd v s h0] at h
        exact statusEacc_runCommand h hs
      · rwa [statusEacc_congr (hpWr_keeps_status h h0 h1)]
    simp [hne, hkept]

/-- Of the port's operations, EACC is cleared by the W1C write of STATUS and by the reset. -/
theorem statusEacc_issue {op : HostOp} {s t : State} (h : issue op s = .next t)
    (hs : statusEacc s = true) :
    statusEacc t = false ↔ (∃ v, op = .wr 1#32 v ∧ v.getLsbD 8 = true) ∨ op = .reset := by
  have kept (hstatus : t.status = s.status) : statusEacc t = true := (statusEacc_congr hstatus).trans hs
  cases op with
  | wr r v => simp [statusEacc_hpWr h hs]
  | rd | rdb =>
    cases h
    simp [kept rfl]
  | wrb i b =>
    cases h
    have hstatus : (hpWrb i b s).status = s.status := by rw [hpWrb_frame]
    simp [kept hstatus]
  | reset =>
    cases h
    have hcleared : statusEacc (hpReset s) = false := statusEacc_resetAt s.cap
    simp [hcleared]
  | outside => cases h

/-- Settles O30: an idle step keeps EACC, and any other does what its operation does. -/
theorem onlyTheHostOrResetClearsEacc : Obligations.OnlyTheHostOrResetClearsEacc := by
  unfold Obligations.OnlyTheHostOrResetClearsEacc
  intro s t hstep hs
  obtain ⟨hp, rfl⟩ | ⟨op, rest, hp, hop⟩ := step_next_cases hstep
  · simp [hp, hs]
  · rw [statusEacc_issue hop hs, hp]
    simp

/-! ### No operation stops the machine (R188) -/

theorem exists_runCommand (w : Word) (s : State) : ∃ t, runCommand w s = .next t := by
  by_cases h : ∃ i : Instr, w = encode i
  · obtain ⟨i, rfl⟩ := h
    exact ⟨_, (runCommand_of_decode (decode_encode i) s).trans (exec_eq i s)⟩
  · exact ⟨_, runCommand_of_not_encode (not_exists.1 h) s⟩

/-- A host write has a result whatever the register: only the one to CMD runs a command. -/
theorem exists_hpWr (r v : Word) (s : State) : ∃ t, hpWr r v s = .next t := by
  unfold hpWr
  split
  · exact exists_runCommand v s
  all_goals exact ⟨_, rfl⟩

theorem exists_issue {op : HostOp} (h : op.wellFormed = true) (s : State) :
    ∃ t, issue op s = .next t := by
  cases op with
  | wr r v => exact exists_hpWr r v s
  | rd | wrb | rdb | reset => exact ⟨_, rfl⟩
  | outside => cases h

theorem exists_step {s : State} (h : ∀ op ∈ s.pending, op.wellFormed = true) :
    ∃ t, step s = .next t := by
  cases hp : s.pending with
  | nil => exact ⟨s, step_of_idle hp⟩
  | cons op rest =>
    rw [step_of_pending hp]
    exact exists_issue (h op (hp ▸ List.mem_cons_self)) _

/-- A step only shortens the host's list, so the operations still pending stay the port's own. -/
theorem neverStops_of_wellFormed {s : State} (h : ∀ op ∈ s.pending, op.wellFormed = true) :
    NeverStops s := by
  intro k
  induction k generalizing s with
  | zero => exact ⟨s, rfl⟩
  | succ k ih =>
    obtain ⟨t, hstep⟩ := exists_step h
    have hpending : ∀ op ∈ t.pending, op.wellFormed = true := fun op hop =>
      h op (List.mem_of_mem_tail (step_pending hstep ▸ hop))
    rw [run_succ_of_step Sys2Proof.core hstep]
    exact ih hpending

/-- Settles O31: each operation of the port has a result, and a run issues no other. -/
theorem noOperationOfTheHostPortStops : Obligations.NoOperationOfTheHostPortStops := by
  unfold Obligations.NoOperationOfTheHostPortStops
  exact ⟨exists_runCommand, fun _ => neverStops_of_wellFormed, fun _ _ => step_of_pending⟩

end Sys2Proof.Machine

/-! PROOFS. What the reset values make the first commands of a run answer (spec 70_reset_and_hazards.md R203). -/

namespace Sys2Proof.Machine

theorem mpint_resetAt (n : Word) : mpint (State.resetAt n) = [] := rfl

theorem crc_of_supplied_resetAt {n : Word} {bs : List Byte} {u : State}
    (h : Supplied (State.resetAt n) bs u) : u.crc = crcInitValue := by
  obtain ⟨hframe, -⟩ := h
  rw [hframe]
  rfl

/-- Where CRC stands at INIT, a fold from the old CRC and the one-shot fold agree: the fold from INIT
stays below 2^24, so CRC_GEN's mask keeps it (R102). -/
theorem crcUpdate_crc_eq_crcGen_crc {u : State} (h : u.crc = crcInitValue) :
    (commandEffect .crcUpdate u).crc = (commandEffect .crcGen u).crc := by
  simp only [commandEffect, putCrc_crc, putOutput_crc]
  rw [h, and_crcMask_crc24Fold]

theorem output_crcOut {s : State} (hw : Memory.wf s.obuf = true) :
    output (ok (commandEffect .crcOut s)) = be 3 (s.crc &&& 0x00FFFFFF#32).toNat :=
  output_putOutput_be hw (by decide) _

/-- Settles O41: CRC starts at INIT and the MPInt is empty; that every command answers a next state holds
from any state. -/
theorem resetValuesHaveTheirConsequences : Obligations.ResetValuesHaveTheirConsequences := by
  unfold Obligations.ResetValuesHaveTheirConsequences
  intro n hn
  have hs : StateInv (State.resetAt n) := stateInv_resetAt hn
  refine ⟨fun bs u hu => ?_, ?_, ?_, ?_, fun i u _ => ⟨_, exec_eq i u⟩⟩
  · exact ⟨_, _, exec_of_success rfl, exec_of_success rfl,
      crcUpdate_crc_eq_crcGen_crc (crc_of_supplied_resetAt hu)⟩
  · have hbytes : be 3 (crcInitValue &&& 0x00FFFFFF#32).toNat = [0xB7#8, 0x04#8, 0xCE#8] := by
      decide
    exact ⟨_, exec_of_success rfl, (output_crcOut hs.obufWf).trans hbytes⟩
  · have hfits : bitLengthOf (mpint (State.resetAt n)) ≤ 65535 := by
      rw [mpint_resetAt, bitLengthOf_nil]
      exact Nat.zero_le _
    exact ⟨_, exec_mpiEncode_of_le hfits, output_mpiEncode hs (mpint_resetAt n)⟩
  · exact ⟨_, exec_of_success rfl, val_mpiWlen (mpint_resetAt n)⟩

end Sys2Proof.Machine
